-- ==== Sys2Proof/Word.lean ====
section
/-! DEFINITION. The words of the block: cells, command words, packed frames, and frames as 13 cells. -/

namespace Sys2Proof

/-- An 8-bit cell value (00_scope.md R5: CELLW = 8). -/
abbrev Byte := BitVec 8

/-- The 24-bit command word CW (30_encoding.md R69). -/
abbrev CommandWord := BitVec 24

/-- A frame packed into 104 bits, cell `i` at bits `8i+7 : 8i` (30_encoding.md R73). -/
abbrev FrameWord := BitVec 104

/-- A frame: exactly 13 cells, index 0 to 12 (10_state.md R20, 30_encoding.md R60). -/
abbrev Frame := Vector Byte 13

end Sys2Proof
end

