-- ==== Sys2Proof/Syntax.lean ====
section
/-! DEFINITION. The operations of the block as data: one constructor of `Instr` per row of the opcode table. -/

namespace Sys2Proof

/-- The six field kinds of the enumeration lookup, in the order of their codes 0 to 5 (30_encoding.md R76). -/
inductive Kind where
  | mode
  | state
  | rotate
  | fanStrength
  | ion
  | clean
deriving DecidableEq, Repr

/-- The fifteen symbols NAMEFOR can answer, in the order of their ids 0 to 14 (30_encoding.md R76). -/
inductive EnumSymbol where
  | unknown
  | fan
  | heat
  | cool
  | dry
  | on
  | off
  | command
  | fullEffectOn
  | fullEffectOff
  | swing
  | slow
  | medium
  | fast
  | auto
deriving DecidableEq, Repr

/-- The 24 named fields, F0 to F23 in order (30_encoding.md R61). -/
inductive FieldId where
  | absTemp
  | relTemp
  | u4x1
  | relTempSign
  | u5x4
  | state
  | u5x0
  | mode
  | clean
  | fanStrength
  | u6x0
  | timeHours
  | setClearState
  | rotate
  | u8x0
  | u9x0
  | timeMinutes
  | setClear
  | u10x0
  | u11x6
  | ion
  | u11x0
  | u12x4
  | checksum
deriving DecidableEq, Repr

/-- A field descriptor (30_encoding.md R65). The ranges of its parts are checked by `Descriptor.WellFormed`. -/
structure Descriptor where
  byteIndex : Nat
  bitOffset : Nat
  bitWidth : Nat
  inverted : Bool
deriving DecidableEq, Repr

/-- One operation of the block (30_encoding.md R70, R71). -/
inductive Instr where
  | get (d : Descriptor)
  | set (d : Descriptor) (value : Byte)
  | namefor (kind : Kind) (raw : Byte)
  | commit
  | verify
  | replace (frame : Frame)
  | txread
  | rev (width : Nat) (value : Byte)
deriving DecidableEq, Repr

end Sys2Proof
end

