-- ==== Sys2Proof/WellFormed.lean ====
section
/-! DEFINITION. Which operations the block has a command word for. -/

namespace Sys2Proof

/-- A well-formed descriptor: the field lies in one existing cell (20_memory.md R45). -/
abbrev Descriptor.WellFormed (d : Descriptor) : Prop :=
  d.byteIndex ≤ 12 ∧ d.bitOffset ≤ 7 ∧ 1 ≤ d.bitWidth ∧ d.bitWidth ≤ 8 ∧ d.bitOffset + d.bitWidth ≤ 8

/-- The widths the bit-reversal unit is defined for (41_bit_reversal.md R103). -/
abbrev RevWidth (w : Nat) : Prop := 1 ≤ w ∧ w ≤ 8

/-- The check of an operation's operands, constructor by constructor. -/
def Instr.wf : Instr → Bool
  | .get d => decide d.WellFormed
  | .set d _ => decide d.WellFormed
  | .namefor _ _ => true
  | .commit => true
  | .verify => true
  | .replace _ => true
  | .txread => true
  | .rev w _ => decide (RevWidth w)

/-- The operation can be spelled by a command word that is not refused (30_encoding.md R75). -/
abbrev Instr.WellFormed (i : Instr) : Prop := i.wf = true

end Sys2Proof
end

