-- ==== Sys2Proof/Decode.lean ====
section
/-! DEFINITION. From command words and frame operands to operations, and back (30_encoding.md sections 5 and 7). -/

namespace Sys2Proof

/-! ### Frames in 104 bits -/

/-- Cell `i` of a packed frame: bits `8i+7 : 8i` (30_encoding.md R73). -/
def frameSlice (x : FrameWord) (i : Nat) : Byte := x.extractLsb' (8 * i) 8

/-- The 13 cells of a packed frame (30_encoding.md R73). -/
def unpackFrame (x : FrameWord) : Frame :=
  #v[frameSlice x 0, frameSlice x 1, frameSlice x 2, frameSlice x 3, frameSlice x 4, frameSlice x 5, frameSlice x 6,
     frameSlice x 7, frameSlice x 8, frameSlice x 9, frameSlice x 10, frameSlice x 11, frameSlice x 12]

/-- A frame packed into 104 bits, cell 12 in the most significant place (30_encoding.md R73). -/
def packFrame (f : Frame) : FrameWord :=
  f[12] ++ f[11] ++ f[10] ++ f[9] ++ f[8] ++ f[7] ++ f[6] ++ f[5] ++ f[4] ++ f[3] ++ f[2] ++ f[1] ++ f[0]

/-! ### The fields of a command word -/

/-- `n` bits of a command word from bit `lo` up, as a number. -/
def wordField (w : CommandWord) (lo n : Nat) : Nat := (w.extractLsb' lo n).toNat

/-- OP, bits 23:20 (30_encoding.md R69). -/
def opOf (w : CommandWord) : Nat := wordField w 20 4

/-- BI, bits 19:16: byte_index, or KIND for NAMEFOR (30_encoding.md R69). -/
def biOf (w : CommandWord) : Nat := wordField w 16 4

/-- BO, bits 15:13: bit_offset (30_encoding.md R69). -/
def boOf (w : CommandWord) : Nat := wordField w 13 3

/-- WM1, bits 12:10: bit_width minus 1 (30_encoding.md R69). -/
def wm1Of (w : CommandWord) : Nat := wordField w 10 3

/-- INV, bit 9: the inverted flag (30_encoding.md R69). -/
def invOf (w : CommandWord) : Nat := wordField w 9 1

/-- Z, bit 8: zero in every operation (30_encoding.md R69). -/
def zOf (w : CommandWord) : Nat := wordField w 8 1

/-- VAL, bits 7:0 (30_encoding.md R69). -/
def valOf (w : CommandWord) : Byte := w.extractLsb' 0 8

/-- Operand assembly of a descriptor (30_encoding.md R72). -/
def descriptorOf (w : CommandWord) : Descriptor :=
  { byteIndex := biOf w, bitOffset := boOf w, bitWidth := wm1Of w + 1, inverted := invOf w == 1 }

/-- Operand assembly of a width (30_encoding.md R72). -/
def widthOf (w : CommandWord) : Nat := wm1Of w + 1

/-- The kind a KIND code stands for; codes 6 to 15 are reserved (30_encoding.md R76). -/
def kindOfCode : Nat → Option Kind
  | 0 => some .mode
  | 1 => some .state
  | 2 => some .rotate
  | 3 => some .fanStrength
  | 4 => some .ion
  | 5 => some .clean
  | _ => none

/-- The KIND code of a kind (30_encoding.md R76). -/
def Kind.code : Kind → Nat
  | .mode => 0
  | .state => 1
  | .rotate => 2
  | .fanStrength => 3
  | .ion => 4
  | .clean => 5

/-! ### The opcode table -/

/-- A row of the opcode table: a word `w` selects it when `w & mask = pattern` (30_encoding.md R71). -/
structure OpRow where
  mnemonic : String
  op : Nat
  pattern : CommandWord
  mask : CommandWord
deriving DecidableEq, Repr

/-- The GET row (30_encoding.md R71). -/
def rowGet : OpRow := { mnemonic := "GET", op := 1, pattern := 0x100000, mask := 0xF001FF }

/-- The SET row (30_encoding.md R71). -/
def rowSet : OpRow := { mnemonic := "SET", op := 2, pattern := 0x200000, mask := 0xF00100 }

/-- The NAMEFOR row (30_encoding.md R71). -/
def rowNamefor : OpRow := { mnemonic := "NAMEFOR", op := 3, pattern := 0x300000, mask := 0xF0FF00 }

/-- The COMMIT row (30_encoding.md R71). -/
def rowCommit : OpRow := { mnemonic := "COMMIT", op := 4, pattern := 0x400000, mask := 0xFFFFFF }

/-- The VERIFY row (30_encoding.md R71). -/
def rowVerify : OpRow := { mnemonic := "VERIFY", op := 5, pattern := 0x500000, mask := 0xFFFFFF }

/-- The REPLACE row (30_encoding.md R71). -/
def rowReplace : OpRow := { mnemonic := "REPLACE", op := 6, pattern := 0x600000, mask := 0xFFFFFF }

/-- The TXREAD row (30_encoding.md R71). -/
def rowTxread : OpRow := { mnemonic := "TXREAD", op := 7, pattern := 0x700000, mask := 0xFFFFFF }

/-- The REV row (30_encoding.md R71). -/
def rowRev : OpRow := { mnemonic := "REV", op := 8, pattern := 0x800000, mask := 0xFFE300 }

/-- The eight rows, in the order of the codes (30_encoding.md R70, R71). -/
def opTable : List OpRow := [rowGet, rowSet, rowNamefor, rowCommit, rowVerify, rowReplace, rowTxread, rowRev]

/-- The word selects the row (30_encoding.md R71). -/
abbrev OpRow.Selects (r : OpRow) (w : CommandWord) : Prop := w &&& r.mask = r.pattern

/-! ### Decoding -/

/-- Why a command word is refused, with the codes of 60_exceptions.md R149. -/
inductive DecodeError where
  /-- RF1: OP is 0x0 or 0x9 to 0xF. -/
  | reservedOp
  /-- RF2: a field that must be zero is not. -/
  | mustBeZero
  /-- RF3: GET or SET with byte_index 13, 14 or 15. -/
  | byteIndexRange
  /-- RF4: GET or SET of a field that crosses the cell boundary. -/
  | crossesCell
  /-- RF5: NAMEFOR with KIND 6 to 15. -/
  | reservedKind
deriving DecidableEq, Repr

/-- RF3 before RF4, then the operation (60_exceptions.md R149). -/
def checkDescriptor (d : Descriptor) (i : Instr) : Except DecodeError Instr :=
  if 12 < d.byteIndex then .error .byteIndexRange
  else if 8 < d.bitOffset + d.bitWidth then .error .crossesCell
  else .ok i

/-- The operation a command word and its frame operand spell, or the first cause of refusal in the order of
60_exceptions.md R149. The conditions are the must-be-zero column of 30_encoding.md R71; the operand is looked at for
REPLACE alone. -/
def decode (w : CommandWord) (operand : FrameWord) : Except DecodeError Instr :=
  match opOf w with
  | 1 =>
    if zOf w ≠ 0 ∨ valOf w ≠ 0 then .error .mustBeZero
    else checkDescriptor (descriptorOf w) (.get (descriptorOf w))
  | 2 =>
    if zOf w ≠ 0 then .error .mustBeZero
    else checkDescriptor (descriptorOf w) (.set (descriptorOf w) (valOf w))
  | 3 =>
    if boOf w ≠ 0 ∨ wm1Of w ≠ 0 ∨ invOf w ≠ 0 ∨ zOf w ≠ 0 then .error .mustBeZero
    else
      match kindOfCode (biOf w) with
      | none => .error .reservedKind
      | some k => .ok (.namefor k (valOf w))
  | 4 => if wordField w 0 20 ≠ 0 then .error .mustBeZero else .ok .commit
  | 5 => if wordField w 0 20 ≠ 0 then .error .mustBeZero else .ok .verify
  | 6 => if wordField w 0 20 ≠ 0 then .error .mustBeZero else .ok (.replace (unpackFrame operand))
  | 7 => if wordField w 0 20 ≠ 0 then .error .mustBeZero else .ok .txread
  | 8 =>
    if biOf w ≠ 0 ∨ boOf w ≠ 0 ∨ invOf w ≠ 0 ∨ zOf w ≠ 0 then .error .mustBeZero
    else .ok (.rev (widthOf w) (valOf w))
  | _ => .error .reservedOp

/-! ### Encoding -/

/-- `CW = OP<<20 | BI<<16 | BO<<13 | WM1<<10 | INV<<9 | VAL` (30_encoding.md R69), each field cut to its width. -/
def assemble (op bi bo wm1 : Nat) (inv : Bool) (val : Byte) : CommandWord :=
  BitVec.ofNat 4 op ++ BitVec.ofNat 4 bi ++ BitVec.ofNat 3 bo ++ BitVec.ofNat 3 wm1 ++ BitVec.ofBool inv ++ 0#1 ++ val

/-- The command word of an operation (30_encoding.md R71: every field it does not use is zero). -/
def encodeWord : Instr → CommandWord
  | .get d => assemble 1 d.byteIndex d.bitOffset (d.bitWidth - 1) d.inverted 0
  | .set d v => assemble 2 d.byteIndex d.bitOffset (d.bitWidth - 1) d.inverted v
  | .namefor k raw => assemble 3 k.code 0 0 false raw
  | .commit => assemble 4 0 0 0 false 0
  | .verify => assemble 5 0 0 0 false 0
  | .replace _ => assemble 6 0 0 0 false 0
  | .txread => assemble 7 0 0 0 false 0
  | .rev w v => assemble 8 0 0 (w - 1) false v

/-- The frame operand of an operation: the packed frame for REPLACE (30_encoding.md R73), zero for the others, which
have none (DESIGN CHOICE, log 9). -/
def encodeOperand : Instr → FrameWord
  | .get _ => 0
  | .set _ _ => 0
  | .namefor _ _ => 0
  | .commit => 0
  | .verify => 0
  | .replace f => packFrame f
  | .txread => 0
  | .rev _ _ => 0

/-- The words of an operation: its command word and its frame operand. -/
def encode (i : Instr) : CommandWord × FrameWord := (encodeWord i, encodeOperand i)

/-- The row of the opcode table an operation belongs to (30_encoding.md R71). -/
def Instr.row : Instr → OpRow
  | .get _ => rowGet
  | .set _ _ => rowSet
  | .namefor _ _ => rowNamefor
  | .commit => rowCommit
  | .verify => rowVerify
  | .replace _ => rowReplace
  | .txread => rowTxread
  | .rev _ _ => rowRev

/-! ### Byte streams -/

/-- The three bytes of a command word, most significant first (30_encoding.md R73). -/
def wordBytes (w : CommandWord) : List Byte := [w.extractLsb' 16 8, w.extractLsb' 8 8, w.extractLsb' 0 8]

/-- A command word and its operand as a byte stream. The operand follows the word exactly when OP is that of REPLACE
(30_encoding.md R73, R77). -/
def streamBytes (w : CommandWord) (operand : FrameWord) : List Byte :=
  wordBytes w ++ if opOf w = 6 then (unpackFrame operand).toList else []

/-- One command word and operand from the head of a byte stream, and the rest of it; `none` when the stream ends
before the request does (DEDUCED, log 17). Where the word has no operand, zero stands for it. -/
def readStream : List Byte → Option (CommandWord × FrameWord × List Byte)
  | b0 :: b1 :: b2 :: rest =>
    let w : CommandWord := b0 ++ b1 ++ b2
    if opOf w = 6 then
      match rest with
      | c0 :: c1 :: c2 :: c3 :: c4 :: c5 :: c6 :: c7 :: c8 :: c9 :: c10 :: c11 :: c12 :: rest' =>
        some (w, packFrame #v[c0, c1, c2, c3, c4, c5, c6, c7, c8, c9, c10, c11, c12], rest')
      | _ => none
    else some (w, 0, rest)
  | _ => none

/-! ### The host's numbering of a row's bits -/

/-- The command word in the bits the opcode table numbers: its first `nbits` bits, the rest zero. -/
def tableWord (nbits w : Nat) : CommandWord := BitVec.ofNat 24 (w % 2 ^ nbits)

/-- The frame operand in the bits that count on from the command word's 24. -/
def tableOperand (nbits w : Nat) : FrameWord := BitVec.ofNat 104 (w % 2 ^ nbits / 2 ^ 24)

/-- What the decoder reads from bits numbered as spec/opcode_table.json numbers them. -/
def decodeTableWord (nbits w : Nat) : Option Instr :=
  match decode (tableWord nbits w) (tableOperand nbits w) with
  | .ok i => some i
  | .error _ => none

end Sys2Proof
end

