-- ==== Sys2Proof/Machine/Fields.lean ====
section
/-! DEFINITION. The canonical field table and the field each enumerated kind is stored in. -/

namespace Sys2Proof

/-- The canonical descriptor table, rows F0 to F23 (30_encoding.md R61). -/
def FieldId.descriptor : FieldId → Descriptor
  | .absTemp => ⟨4, 4, 4, true⟩
  | .relTemp => ⟨4, 2, 2, true⟩
  | .u4x1 => ⟨4, 1, 1, false⟩
  | .relTempSign => ⟨4, 0, 1, false⟩
  | .u5x4 => ⟨5, 4, 4, false⟩
  | .state => ⟨5, 1, 3, false⟩
  | .u5x0 => ⟨5, 0, 1, false⟩
  | .mode => ⟨6, 6, 2, false⟩
  | .clean => ⟨6, 4, 2, false⟩
  | .fanStrength => ⟨6, 1, 3, false⟩
  | .u6x0 => ⟨6, 0, 1, false⟩
  | .timeHours => ⟨7, 3, 5, true⟩
  | .setClearState => ⟨7, 0, 3, false⟩
  | .rotate => ⟨8, 5, 3, false⟩
  | .u8x0 => ⟨8, 0, 5, false⟩
  | .u9x0 => ⟨9, 0, 8, false⟩
  | .timeMinutes => ⟨10, 2, 6, true⟩
  | .setClear => ⟨10, 1, 1, false⟩
  | .u10x0 => ⟨10, 0, 1, false⟩
  | .u11x6 => ⟨11, 6, 2, false⟩
  | .ion => ⟨11, 5, 1, false⟩
  | .u11x0 => ⟨11, 0, 5, false⟩
  | .u12x4 => ⟨12, 4, 4, false⟩
  | .checksum => ⟨12, 0, 4, false⟩

/-- The rows of the canonical table in order (30_encoding.md R61). -/
def FieldId.all : List FieldId :=
  [.absTemp, .relTemp, .u4x1, .relTempSign, .u5x4, .state, .u5x0, .mode, .clean, .fanStrength, .u6x0, .timeHours] ++
  [.setClearState, .rotate, .u8x0, .u9x0, .timeMinutes, .setClear, .u10x0, .u11x6, .ion, .u11x0, .u12x4, .checksum]

/-- The name of a field (30_encoding.md R61). -/
def FieldId.name : FieldId → String
  | .absTemp => "ABS_TEMP"
  | .relTemp => "REL_TEMP"
  | .u4x1 => "U4_1"
  | .relTempSign => "REL_TEMP_SIGN"
  | .u5x4 => "U5_4"
  | .state => "STATE"
  | .u5x0 => "U5_0"
  | .mode => "MODE"
  | .clean => "CLEAN"
  | .fanStrength => "FAN_STRENGTH"
  | .u6x0 => "U6_0"
  | .timeHours => "TIME_HOURS"
  | .setClearState => "SET_CLEAR_STATE"
  | .rotate => "ROTATE"
  | .u8x0 => "U8_0"
  | .u9x0 => "U9_0"
  | .timeMinutes => "TIME_MINUTES"
  | .setClear => "SET_CLEAR"
  | .u10x0 => "U10_0"
  | .u11x6 => "U11_6"
  | .ion => "ION"
  | .u11x0 => "U11_0"
  | .u12x4 => "U12_4"
  | .checksum => "CHECKSUM"

/-- The field each kind is stored in (42_enum_lookup.md R114; DEDUCED, log 8). -/
def Kind.field : Kind → FieldId
  | .mode => .mode
  | .state => .state
  | .rotate => .rotate
  | .fanStrength => .fanStrength
  | .ion => .ion
  | .clean => .clean

/-- The name of a kind (30_encoding.md R76). -/
def Kind.name : Kind → String
  | .mode => "MODE"
  | .state => "STATE"
  | .rotate => "ROTATE"
  | .fanStrength => "FAN_STRENGTH"
  | .ion => "ION"
  | .clean => "CLEAN"

/-- The kinds in the order of their codes (30_encoding.md R76). -/
def Kind.all : List Kind := [.mode, .state, .rotate, .fanStrength, .ion, .clean]

end Sys2Proof
end

