-- ==== Sys2Proof/Machine/State.lean ====
section
/-! DEFINITION. The state of the block and of its request interface, the reasons a step can stop, and reset. -/

namespace Sys2Proof.Machine

/-- Who issues an operation: `c` is the main command path, `t` the transceiver's receive path (60_exceptions.md R157). -/
inductive Agent where
  | c
  | t
deriving DecidableEq, Repr

/-- One request to the block: the agent that presents it, the command word, and the 104-bit frame operand, which only
REPLACE reads (30_encoding.md R69, R73; 92_eei_decisions.md D2; DESIGN CHOICE, log 9). -/
structure Request where
  agent : Agent
  word : CommandWord
  operand : FrameWord
deriving DecidableEq, Repr

/-- The status part of a response; the value 3 is never produced (30_encoding.md R74). -/
inductive Status where
  | ok
  | refused
  | stale
deriving DecidableEq, Repr

/-- The response of an operation, `respond(ST, DATA, FRAME)` (30_encoding.md R74). -/
structure Response where
  status : Status
  data : Byte
  frame : FrameWord
deriving DecidableEq, Repr

/-- The 13 cells, which are all the state the block has (10_state.md section 1), and the model's record of the block's
inputs and outputs. -/
structure State where
  /-- The Package Buffer `B[0]` to `B[12]` (10_state.md R20; DESIGN CHOICE, log 16). -/
  buffer : Frame
  /-- The requests of both agents still to come, in the total order in which the block takes them (20_memory.md R50,
  R51). The model's own field (DESIGN CHOICE, log 1, log 2). -/
  inbox : List Request
  /-- The response given in the step just taken; the block does not retain it (10_state.md R28). The model's own field
  (DESIGN CHOICE, log 3). -/
  response : Option Response
  /-- The responses given to agent C so far, oldest first: what is observed of a run (70_reset_and_hazards.md R180). The
  model's own field (DESIGN CHOICE, log 3). -/
  answers : List Response
deriving DecidableEq, Repr

/-- Why a run has gone wrong. -/
inductive Fault where
  /-- StaleTransmit: raised by TXREAD alone, when the buffer is not committed (44_buffer_lifecycle.md R137,
  60_exceptions.md R150). It carries the answer the block gives there: status STALE and the 13 cells. SAFE: the block
  goes on after this answer and the model stops (DEDUCED, log 4). -/
  | staleTransmit (answer : Response)
deriving DecidableEq, Repr

/-- Why an operation has no meaning. A command word the spec refuses is not among these: it is answered REFUSED. -/
inductive Refusal where
  /-- An operation this model gives no meaning. Raised by nothing: all eight operations have one. SAFE. -/
  | notModelled (mnemonic : String)
deriving DecidableEq, Repr

/-- Right after reset: 13 zero cells (10_state.md R31; DEDUCED, log 5), nothing presented and nothing answered (DESIGN CHOICE, log 2, log 3). -/
def State.reset : State :=
  { buffer := #v[0, 0, 0, 0, 0, 0, 0, 0, 0, 0, 0, 0, 0], inbox := [], response := none, answers := [] }

end Sys2Proof.Machine
end

