-- ==== Sys2Proof/Machine/Ops.lean ====
section
/-! DEFINITION. The shared operations: reading and writing a cell, answering a request, and taking one. The block has no
exception entry and no return from one (60_exceptions.md R145, R154, R155), so there is none here. -/

namespace Sys2Proof.Machine

/-- What one operation, or one step, ends in. -/
abbrev Result := Host.Outcome State Fault Refusal

/-! ### Cells -/

/-- `B[i]` (00_scope.md section 5). Cells 13 to 15 do not exist; every operation refuses before it would read one
(20_memory.md R46), so the zero given there is never used (DESIGN CHOICE, log 13). -/
def readCell (f : Frame) (i : Nat) : Byte := (f[i]?).getD 0

/-- `B[i] <- v` (00_scope.md section 5). Writing no existing cell changes nothing, and no operation does it (DESIGN CHOICE, log 13). -/
def writeCell (f : Frame) (i : Nat) (v : Byte) : Frame := f.setIfInBounds i v

/-! ### Updates of the state, one per field -/

def State.setBuffer (s : State) (f : Frame) : State := { s with buffer := f }

def State.setInbox (s : State) (rs : List Request) : State := { s with inbox := rs }

def State.setResponse (s : State) (r : Option Response) : State := { s with response := r }

def State.setAnswers (s : State) (rs : List Response) : State := { s with answers := rs }

/-! ### Responses -/

/-- The two bits of a status (30_encoding.md R74). -/
def Status.code : Status → BitVec 2
  | .ok => 0
  | .refused => 1
  | .stale => 2

/-- The response OK with a value and no frame (30_encoding.md R74). -/
def okResponse (data : Byte) : Response := { status := .ok, data := data, frame := 0 }

/-- The response OK with a frame: TXREAD of a committed buffer (44_buffer_lifecycle.md R136). -/
def frameResponse (x : FrameWord) : Response := { status := .ok, data := 0, frame := x }

/-- The response STALE with a frame: TXREAD of a buffer that is not committed (44_buffer_lifecycle.md R137). -/
def staleResponse (x : FrameWord) : Response := { status := .stale, data := 0, frame := x }

/-- The response REFUSED: no data and no frame (30_encoding.md R74, R75). -/
def refusedResponse : Response := { status := .refused, data := 0, frame := 0 }

/-- An operation that ends well: the buffer it leaves, and the response it gives. -/
def complete (f : Frame) (r : Response) (s : State) : Result := .next ((s.setBuffer f).setResponse (some r))

/-- `refuse`: the operation is not performed, no cell is read or written, and the response is REFUSED
(60_exceptions.md R149). The machine goes on (DESIGN CHOICE, log 14). -/
def refuse (s : State) : Result := .next (s.setResponse (some refusedResponse))

/-- The fault StaleTransmit, with the answer the block gives (44_buffer_lifecycle.md R137; DEDUCED, log 4). -/
def staleTransmit (x : FrameWord) : Result := .fault (.staleTransmit (staleResponse x))

/-! ### Requests -/

/-- The next request in the total order of 20_memory.md R50, if one has been presented, and the state once the block
has taken it: the last response is no longer there (10_state.md R28). -/
def takeRequest (s : State) : Option (Request × State) :=
  match s.inbox with
  | [] => none
  | r :: rest => some (r, (s.setInbox rest).setResponse none)

/-- A step with no request presented: no cell changes (10_state.md R21) and no response is given (DESIGN CHOICE, log 15). -/
def idle (s : State) : State := s.setResponse none

/-- The record of a response given to an agent: those to agent C are observed, those to agent T carry no information
(70_reset_and_hazards.md R180). -/
def recordAnswer (a : Agent) (s : State) : State :=
  match a with
  | .c => s.setAnswers (s.answers ++ s.response.toList)
  | .t => s

/-- The response of a finished operation goes to the agent that asked. A fault ends the run as it is. -/
def giveAnswer (a : Agent) (o : Result) : Result :=
  match o with
  | .next s => .next (recordAnswer a s)
  | .fault r => .fault r
  | .refused r => .refused r

end Sys2Proof.Machine
end

