-- ==== Sys2Proof/Machine/Flags.lean ====
section
/-! DEFINITION. The checksum functions and the committed condition. The block stores no condition bit: the condition is
a function of the 13 cells (10_state.md R27). -/

namespace Sys2Proof.Machine

/-- `fold8(F) = F[0] ^ F[1] ^ ... ^ F[12]` (43_checksum.md R120). -/
def fold8 (f : Frame) : Byte := f.toList.foldl (· ^^^ ·) 0

/-- `nib(x) = (x ^ (x >> 4)) & 0xF` (43_checksum.md R121). -/
def nib (x : Byte) : Byte := (x ^^^ (x >>> 4)) &&& 0x0F

/-- `clr(F)`: the checksum bits 3:0 of cell 12 made zero (43_checksum.md R122). -/
def clearChecksum (f : Frame) : Frame := writeCell f 12 (readCell f 12 &&& 0xF0)

/-- `cks(F) = nib(fold8(clr(F)))` (43_checksum.md R122). -/
def cks (f : Frame) : Byte := nib (fold8 (clearChecksum f))

/-- `committed(F)`: the stored checksum equals the computed one (43_checksum.md R123). Dirty is its negation
(10_state.md R27). -/
def committed (f : Frame) : Bool := (readCell f 12 &&& 0x0F) == cks f

end Sys2Proof.Machine
end

