-- ==== Sys2Proof/Machine/Operands.lean ====
section
/-! DEFINITION. Field operands: masks, reduction modulo a power of two, bit reversal, and fields of a frame. -/

namespace Sys2Proof.Machine

/-- `mask(o, w) = ((1 << w) - 1) << o`, 8 bits (20_memory.md R41; 90_conflicts.md C1). -/
def fieldMask (o w : Nat) : Byte := BitVec.ofNat 8 (((1 <<< w) - 1) <<< o)

/-- `v mod 2^w` (00_scope.md section 5; 60_exceptions.md R146). -/
def modWidth (w : Nat) (v : Byte) : Byte := BitVec.ofNat 8 (v.toNat % 2 ^ w)

/-- The terms `i < n` of the sum of 41_bit_reversal.md R100: `v[w-1-i] << i`. No two terms share a bit, so OR adds them
(DEDUCED, log 12). -/
def revTerms (w : Nat) (v : Byte) : Nat → Byte
  | 0 => 0
  | i + 1 => revTerms w v i ||| (((v >>> (w - 1 - i)) &&& 1) <<< i)

/-- `rev(w, v)`, the bit-reversal unit (41_bit_reversal.md R100), applied for widths 1 to 8 only (R103). -/
def revBits (w : Nat) (v : Byte) : Byte := revTerms w v w

/-- The stored form of a logical value: masked first, then reversed when the field is inverted (40_field_codec.md R91,
30_encoding.md R66). -/
def storedForm (d : Descriptor) (v : Byte) : Byte :=
  let m := modWidth d.bitWidth v
  if d.inverted then revBits d.bitWidth m else m

/-- The logical value of a field's stored bits (40_field_codec.md R90). -/
def logicalForm (d : Descriptor) (raw : Byte) : Byte := if d.inverted then revBits d.bitWidth raw else raw

/-- The value of a field of a frame (40_field_codec.md R90). -/
def getField (f : Frame) (d : Descriptor) : Byte :=
  logicalForm d ((readCell f d.byteIndex &&& fieldMask d.bitOffset d.bitWidth) >>> d.bitOffset)

/-- A cell with a field of it cleared and the stored form of a value put in (40_field_codec.md R91). -/
def insertField (b : Byte) (d : Descriptor) (v : Byte) : Byte :=
  (b &&& ~~~(fieldMask d.bitOffset d.bitWidth)) ||| (storedForm d v <<< d.bitOffset)

/-- A frame with a field of it set (40_field_codec.md R91). -/
def setField (f : Frame) (d : Descriptor) (v : Byte) : Frame :=
  writeCell f d.byteIndex (insertField (readCell f d.byteIndex) d v)

end Sys2Proof.Machine
end

