-- ==== Sys2Proof/Machine/Checksum.lean ====
section
/-! DEFINITION. The operations COMMIT and VERIFY (43_checksum.md). -/

namespace Sys2Proof.Machine

/-- The frame COMMIT leaves: clear the checksum field, fold the 13 cells, fold to a nibble, and set the field, both
writes "via the Field Codec's `set`" (43_checksum.md R124). -/
def commitFrame (f : Frame) : Frame :=
  let cleared := setField f FieldId.checksum.descriptor 0
  let v := nib (fold8 cleared)
  setField cleared FieldId.checksum.descriptor v

/-- COMMIT (43_checksum.md R124), in one step: no operation of agent T falls between its two writes (R49, D28; DEDUCED,
log 11). -/
def execCommit (s : State) : Result := complete (commitFrame s.buffer) (okResponse 0) s

/-- VERIFY (43_checksum.md R125). -/
def execVerify (s : State) : Result := complete s.buffer (okResponse (if committed s.buffer then 1 else 0)) s

end Sys2Proof.Machine
end

