-- ==== Sys2Proof/Machine/Codec.lean ====
section
/-! DEFINITION. The Field Codec operations GET and SET (40_field_codec.md). -/

namespace Sys2Proof.Machine

/-- GET (40_field_codec.md R90). -/
def execGet (d : Descriptor) (s : State) : Result :=
  if d.WellFormed then complete s.buffer (okResponse (getField s.buffer d)) s else refuse s

/-- SET (40_field_codec.md R91). -/
def execSet (d : Descriptor) (value : Byte) (s : State) : Result :=
  if d.WellFormed then complete (setField s.buffer d value) (okResponse 0) s else refuse s

end Sys2Proof.Machine
end

