-- ==== Sys2Proof/Config.lean ====
section
/-! DEFINITION. The open parameters of the block (00_scope.md R6). Neither constant has a body, so nothing can be
proved about its value. -/

namespace Sys2Proof

/-- The choice behind the open parameter `EnumValues` (42_enum_lookup.md R113, U5): for each constant of a kind whose
value the spec does not give, a number that picks its value among those still free (see `chosenRow`). FREE VALUE,
DESIGN CHOICE, log 6: every table that meets R113 is some choice, and every choice gives a table that meets R113. -/
opaque Config.enumChoice : Kind → EnumSymbol → Nat

/-- The open parameter `BaseTemplate`, any 13 bytes (70_reset_and_hazards.md R168, U3). FREE VALUE, DESIGN CHOICE, log 7. -/
opaque Config.baseTemplate : Frame

end Sys2Proof
end

