-- ==== Sys2Proof/Machine/EnumTable.lean ====
section
/-! DEFINITION. Symbols and the open table of enumerated values. -/

namespace Sys2Proof

/-- The id of a symbol, 0 to 14 (30_encoding.md R76). -/
def EnumSymbol.id : EnumSymbol → BitVec 8
  | .unknown => 0
  | .fan => 1
  | .heat => 2
  | .cool => 3
  | .dry => 4
  | .on => 5
  | .off => 6
  | .command => 7
  | .fullEffectOn => 8
  | .fullEffectOff => 9
  | .swing => 10
  | .slow => 11
  | .medium => 12
  | .fast => 13
  | .auto => 14

/-- The string a symbol stands for (30_encoding.md R76). -/
def EnumSymbol.name : EnumSymbol → String
  | .unknown => "unknown"
  | .fan => "fan"
  | .heat => "heat"
  | .cool => "cool"
  | .dry => "dry"
  | .on => "on"
  | .off => "off"
  | .command => "command"
  | .fullEffectOn => "full-effect-on"
  | .fullEffectOff => "full-effect-off"
  | .swing => "swing"
  | .slow => "slow"
  | .medium => "medium"
  | .fast => "fast"
  | .auto => "auto"

/-- The symbols in the order of their ids (30_encoding.md R76). -/
def EnumSymbol.all : List EnumSymbol :=
  [.unknown, .fan, .heat, .cool, .dry, .on, .off, .command, .fullEffectOn, .fullEffectOff] ++
  [.swing, .slow, .medium, .fast, .auto]

/-- The named constants of a kind (30_encoding.md R67, R76). -/
def Kind.constants : Kind → List EnumSymbol
  | .mode => [.fan, .heat, .cool, .dry]
  | .state => [.on, .off, .command, .fullEffectOn, .fullEffectOff]
  | .rotate => [.on, .off, .swing]
  | .fanStrength => [.slow, .medium, .fast, .auto]
  | .ion => [.on, .off]
  | .clean => [.on, .off]

/-- The width of a kind's field (30_encoding.md R76). -/
def Kind.width (k : Kind) : Nat := k.field.descriptor.bitWidth

/-- The three values the spec gives: mode cool, state on, fan-strength auto (42_enum_lookup.md R112). -/
def givenValue : Kind → EnumSymbol → Option Byte
  | .mode, .cool => some 1
  | .state, .on => some 4
  | .fanStrength, .auto => some 2
  | _, _ => none

/-- A table of the values of one kind's constants. -/
abbrev EnumRow := List (EnumSymbol × Byte)

/-- The value the spec gives some constant of the kind is not free for the others (42_enum_lookup.md R113 (b)). -/
def isGiven (k : Kind) (v : Byte) : Bool := k.constants.any fun c => givenValue k c == some v

/-- The values of the kind's field that no constant has been given (42_enum_lookup.md R113 (b), (c)). -/
def freeValues (k : Kind) : List Byte :=
  ((List.range (2 ^ k.width)).map (BitVec.ofNat 8)).filter fun v => !isGiven k v

/-- Give each constant its value: the one the spec gives it, or the free value that the choice picks, which is then no
longer free. -/
def assignValues (given : EnumSymbol → Option Byte) (choice : EnumSymbol → Nat) : List EnumSymbol → List Byte → EnumRow
  | [], _ => []
  | c :: cs, free =>
    match given c with
    | some v => (c, v) :: assignValues given choice cs free
    | none =>
      let n := choice c % free.length
      (c, free.getD n 0) :: assignValues given choice cs (free.eraseIdx n)

/-- The table that a choice stands for: every choice gives a table that meets 42_enum_lookup.md R113, and every table
that meets it is given by some choice. -/
def chosenRow (choice : Kind → EnumSymbol → Nat) (k : Kind) : EnumRow :=
  assignValues (givenValue k) (choice k) k.constants (freeValues k)

/-- The open parameter `EnumValues`, as one table per kind (00_scope.md R6; DESIGN CHOICE, log 6). -/
def enumRow (k : Kind) : EnumRow := chosenRow Config.enumChoice k

/-- `EnumValues(k, c)`, for a constant `c` of kind `k` (42_enum_lookup.md R112, R113). -/
def enumValue (k : Kind) (c : EnumSymbol) : Option Byte := (enumRow k).lookup c

/-- The constant of a table with a given value, or "unknown" (42_enum_lookup.md R110). -/
def symbolFor : EnumRow → Byte → EnumSymbol
  | [], _ => .unknown
  | (c, v) :: rest, raw => if v = raw then c else symbolFor rest raw

/-- What 42_enum_lookup.md R113 asks of a table of values for kind `k`: the three given values (a), no value twice (b),
every value fits the field (c), for exactly the constants of the kind. -/
def EnumRow.Admissible (k : Kind) (row : EnumRow) : Prop :=
  row.map Prod.fst = k.constants ∧
  (∀ c v, givenValue k c = some v → (c, v) ∈ row) ∧
  (row.map Prod.snd).Nodup ∧
  ∀ p ∈ row, p.2.toNat < 2 ^ k.width

end Sys2Proof
end

