-- ==== Sys2Proof/Machine/EnumLookup.lean ====
section
/-! DEFINITION. The operation NAMEFOR (42_enum_lookup.md). -/

namespace Sys2Proof.Machine

/-- NAMEFOR (42_enum_lookup.md R110). -/
def execNamefor (kind : Kind) (raw : Byte) (s : State) : Result :=
  complete s.buffer (okResponse (symbolFor (enumRow kind) raw).id) s

end Sys2Proof.Machine
end

