-- ==== Sys2Proof/Machine/Lifecycle.lean ====
section
/-! DEFINITION. The whole-frame operations REPLACE and TXREAD (44_buffer_lifecycle.md). -/

namespace Sys2Proof.Machine

/-- REPLACE (44_buffer_lifecycle.md R135). -/
def execReplace (frame : Frame) (s : State) : Result := complete frame (okResponse 0) s

/-- TXREAD (44_buffer_lifecycle.md R136); of a buffer that is not committed, the fault StaleTransmit (R137). -/
def execTxread (s : State) : Result :=
  if committed s.buffer then complete s.buffer (frameResponse (packFrame s.buffer)) s
  else staleTransmit (packFrame s.buffer)

end Sys2Proof.Machine
end

