-- ==== Sys2Proof/Machine/Reversal.lean ====
section
/-! DEFINITION. The operation REV (41_bit_reversal.md). -/

namespace Sys2Proof.Machine

/-- REV (41_bit_reversal.md R101). Widths outside 1 to 8 cannot be spelled in a command word; as a term they are refused
(R103; 93_implementation_defined.md U2; DESIGN CHOICE, log 13). -/
def execRev (width : Nat) (value : Byte) (s : State) : Result :=
  if RevWidth width then complete s.buffer (okResponse (revBits width (modWidth width value))) s else refuse s

end Sys2Proof.Machine
end

