-- ==== Sys2Proof/Machine/Dispatch.lean ====
section
/-! DEFINITION. One arm per operation: the meaning of each. -/

namespace Sys2Proof.Machine

def exec (i : Instr) (s : State) : Host.Outcome State Fault Refusal :=
  match i with
  | .get d => Sys2Proof.Machine.execGet d s
  | .set d value => Sys2Proof.Machine.execSet d value s
  | .namefor kind raw => Sys2Proof.Machine.execNamefor kind raw s
  | .commit => Sys2Proof.Machine.execCommit s
  | .verify => Sys2Proof.Machine.execVerify s
  | .replace frame => Sys2Proof.Machine.execReplace frame s
  | .txread => Sys2Proof.Machine.execTxread s
  | .rev width value => Sys2Proof.Machine.execRev width value s

end Sys2Proof.Machine
end

