-- ==== Sys2Proof/Machine/Step.lean ====
section
/-! DEFINITION. One step of the block: the next request of the total order is taken, performed whole and answered. -/

namespace Sys2Proof.Machine

/-- Perform a request once it is taken: the operation its words spell, or the answer REFUSED (30_encoding.md R75). -/
def perform (r : Request) (s : State) : Result :=
  match decode r.word r.operand with
  | .ok i => exec i s
  | .error _ => refuse s

/-- One step: one whole operation (20_memory.md R49), or nothing when no request has been presented. -/
def step (s : State) : Host.Outcome State Fault Refusal :=
  match takeRequest s with
  | none => .next (idle s)
  | some (r, taken) => giveAnswer r.agent (perform r taken)

/-- Agent C presents the operation whose bits, numbered as the opcode table numbers them, are `w`: it is the next
request (DESIGN CHOICE, log 2). -/
def State.withFetchWord (s : State) (nbits w : Nat) : State :=
  s.setInbox ({ agent := .c, word := tableWord nbits w, operand := tableOperand nbits w } :: s.inbox)

end Sys2Proof.Machine
end

