-- ==== Sys2Proof/Machine/Pseudo.lean ====
section
/-! DEFINITION. Pseudo-operations: the fixed sequences of operations of 30_encoding.md R79. -/

namespace Sys2Proof

/-- The four pseudo-operations (30_encoding.md R79). The field of `set f=name` and of `show` is one of the six fields that
hold a kind (42_enum_lookup.md R114), so it is named by its kind. -/
inductive PseudoOp where
  | setNamed (kind : Kind) (name : EnumSymbol)
  | showField (kind : Kind)
  | send
  | recv (frame : Frame)
deriving DecidableEq, Repr

/-- The operations a pseudo-operation stands for (30_encoding.md R79), `answer` being the DATA answered to its first one,
which `show` hands to its second. `none` when `set f=name` names no constant of the kind. It is not atomic: a request of
agent T may stand between its parts (20_memory.md R51). -/
def PseudoOp.expand (p : PseudoOp) (answer : Byte) : Option (List Instr) :=
  match p with
  | .setNamed k c => (enumValue k c).map fun v => [.set k.field.descriptor v]
  | .showField k => some [.get k.field.descriptor, .namefor k answer]
  | .send => some [.commit, .txread]
  | .recv f => some [.replace f, .verify]

end Sys2Proof
end

