-- ==== Sys2Proof/Safety.lean ====
section
/-! DEFINITION. Runs, what is observed of them, what the environment may do, and when a run has gone wrong. -/

namespace Sys2Proof.Machine

/-! ### Runs (70_reset_and_hazards.md R180) -/

/-- An agent presents an operation. -/
def request (a : Agent) (i : Instr) : Request := { agent := a, word := encodeWord i, operand := encodeOperand i }

/-- The requests of one agent among those to come, in that agent's own order. -/
def presentedBy (a : Agent) (rs : List Request) : List Request := rs.filter fun r => r.agent == a

/-- A total order of agent C's and agent T's requests that keeps each agent's own order (20_memory.md R50, R51). -/
def Interleaving (cs ts rs : List Request) : Prop := presentedBy .c rs = cs ∧ presentedBy .t rs = ts

/-- The start of a run: reset, with the requests of both agents in some total order. -/
def startRun (rs : List Request) : State := State.reset.setInbox rs

/-- `n` steps, stopping at the first fault: the host's `Core.run` of this machine. -/
def runSteps : Nat → State → Result
  | 0, s => .next s
  | n + 1, s =>
    match step s with
    | .next t => runSteps n t
    | .fault r => .fault r
    | .refused r => .refused r

/-- A run is over when every operation of agent C's list has been answered. -/
abbrev Finished (s : State) : Prop := presentedBy .c s.inbox = []

/-- What is observed of a finished run: the responses given to agent C, in order, and the 13 cells. -/
def observe (s : State) : List Response × Frame := (s.answers, s.buffer)

/-- A run has gone wrong exactly when some TXREAD answered STALE: its first `n` steps are free of that. -/
def SafeRun (n : Nat) (s : State) : Prop := ∀ answer, runSteps n s ≠ .fault (.staleTransmit answer)

/-! ### The environment (70_reset_and_hazards.md R172, R179) -/

/-- Agent T issues nothing but REPLACE (60_exceptions.md R158). The block does not check it (R156; DESIGN CHOICE, log 10). -/
def EnvironmentLegal (rs : List Request) : Prop :=
  ∀ r ∈ rs, r.agent = .t → ∃ f, decode r.word r.operand = .ok (.replace f)

/-- NoRxDuring: agent T issues nothing among the first `n` requests (70_reset_and_hazards.md R172). -/
def NoRxDuring (n : Nat) (rs : List Request) : Prop := ∀ r ∈ rs.take n, r.agent = .c

/-- A list of requests with no refused word (30_encoding.md R75; 70_reset_and_hazards.md R180). -/
def AllAccepted (rs : List Request) : Prop := ∀ r ∈ rs, ∃ i, decode r.word r.operand = .ok i

/-- Boot: the command layer loads the base template (70_reset_and_hazards.md R168). -/
def bootRequest : Request := request .c (.replace Config.baseTemplate)

/-! ### Causes of refusal (30_encoding.md R75; 60_exceptions.md R149) -/

/-- The causes for which a command word is refused, each on its own, from the columns of the opcode table. -/
def RefusalCause (e : DecodeError) (w : CommandWord) : Prop :=
  match e with
  | .reservedOp => opOf w = 0 ∨ 9 ≤ opOf w
  | .mustBeZero => ∃ r ∈ opTable, r.op = opOf w ∧ ¬ r.Selects w
  | .byteIndexRange => (opOf w = 1 ∨ opOf w = 2) ∧ 12 < biOf w
  | .crossesCell => (opOf w = 1 ∨ opOf w = 2) ∧ 7 < boOf w + wm1Of w
  | .reservedKind => opOf w = 3 ∧ 5 < biOf w

/-- The order in which causes are named: RF1 before RF2 before RF3 before RF4, RF5 after RF2. -/
def refusalRank : DecodeError → Nat
  | .reservedOp => 0
  | .mustBeZero => 1
  | .byteIndexRange => 2
  | .crossesCell => 3
  | .reservedKind => 2

/-! ### Cells, bits and answers -/

/-- Bit `j` of cell `i` (20_memory.md R41). -/
def cellBit (f : Frame) (i j : Nat) : Bool := (readCell f i).getLsbD j

/-- The position inside a field of bit `k` of its logical value: reversed when the field is inverted
(20_memory.md R44). -/
def fieldPosition (d : Descriptor) (k : Nat) : Nat := if d.inverted then d.bitWidth - 1 - k else k

/-- Cell `i`, bit `j` belongs to the field (20_memory.md R41). -/
abbrev Covers (d : Descriptor) (i j : Nat) : Prop :=
  d.byteIndex = i ∧ d.bitOffset ≤ j ∧ j < d.bitOffset + d.bitWidth

/-- Two fields share no bit (40_field_codec.md R93). -/
def DisjointFields (d e : Descriptor) : Prop := ∀ i j, Covers d i j → ¬ Covers e i j

/-- A frame with one bit of one cell changed. -/
def flipBit (f : Frame) (i j : Nat) : Frame := writeCell f i (readCell f i ^^^ BitVec.ofNat 8 (2 ^ j))

/-- The parity of the 26 bits of a frame at positions `k` and `k + 4` of its cells (43_checksum.md R128, R129). -/
def columnParity (f : Frame) (k : Nat) : Bool :=
  (List.range 13).foldl (fun p i => p ^^ (cellBit f i k ^^ cellBit f i (k + 4))) false

/-- A response that breaks no promise: never STALE; REFUSED without data or frame; data or frame but not both
(30_encoding.md R74); and a frame that is handed over is committed (44_buffer_lifecycle.md R137). -/
def Response.Sound (r : Response) : Prop :=
  r.status ≠ .stale ∧ (r.status = .refused → r.data = 0 ∧ r.frame = 0) ∧ (r.frame ≠ 0 → r.data = 0) ∧
    committed (unpackFrame r.frame) = true

/-- Every response given so far is sound. -/
def State.AnswersSound (s : State) : Prop := (∀ r ∈ s.answers, r.Sound) ∧ ∀ r, s.response = some r → r.Sound

end Sys2Proof.Machine
end

