-- ==== Sys2Proof/Certificates/Slice0/Obligations.lean ====
section
/-! DEFINITION. The statements about the block, from the numbered rules of the spec. A statement whose docstring names
rules under "derived" rests on rules the spec itself marks as derived or decided, or on a log entry of the model. -/

open Sys2Proof Sys2Proof.Machine

/-! ### Reset -/

/-- Derived (10_state.md R31, the spec's decision D10, and R32; for the model's own fields, log 2 and log 3). -/
def Obligations.ResetLeavesThirteenZeroCells : Prop :=
  (∀ i, i < 13 → readCell State.reset.buffer i = 0) ∧ cks State.reset.buffer = 0 ∧
    committed State.reset.buffer = true ∧
    State.reset.inbox = [] ∧ State.reset.response = none ∧ State.reset.answers = []

/-- Derived (70_reset_and_hazards.md R166). -/
def Obligations.ReplaceWithZeroBytesRestoresTheResetBuffer : Prop :=
  ∀ (s : State) (a : Agent) (rest : List Request),
    ∃ t, step (s.setInbox (request a (.replace (unpackFrame 0)) :: rest)) = .next t ∧ t.buffer = State.reset.buffer

/-- Derived (70_reset_and_hazards.md R168, D11; log 7): for every base template. -/
def Obligations.BootLoadsTheBaseTemplate : Prop :=
  ∀ rest : List Request,
    ∃ t, step (startRun (bootRequest :: rest)) = .next t ∧ t.buffer = Config.baseTemplate ∧ t.inbox = rest ∧
      t.answers = [okResponse 0]

/-! ### Steps -/

/-- Derived (20_memory.md R49, R50; log 1, log 3): a step takes the first request, runs the operation its words decode
to in the state without it, and adds the response to agent C's answers when agent C asked. (No operation ends in a
refusal: `OnlyAStaleTransmissionStops`.) -/
def Obligations.StepRunsTheDecodedOperation : Prop :=
  ∀ (s : State) (r : Request) (rest : List Request) (i : Instr),
    s.inbox = r :: rest → decode r.word r.operand = .ok i →
      let taken : State := { buffer := s.buffer, inbox := rest, response := none, answers := s.answers }
      (∀ t, exec i taken = .next t →
        step s = .next (match r.agent with
          | .c => t.setAnswers (t.answers ++ t.response.toList)
          | .t => t)) ∧
      ∀ f, exec i taken = .fault f → step s = .fault f

/-- Derived (log 15; 10_state.md R21): with nothing presented a step changes no cell, no request and no answer. -/
def Obligations.StepWithoutARequestIsIdle : Prop :=
  ∀ s : State, s.inbox = [] → step s = .next (s.setResponse none)

/-- Derived (30_encoding.md R74, R75, 60_exceptions.md R149, D7; log 14): a word with any cause of refusal is answered
REFUSED with no data and no frame, no cell changes, and the machine goes on; a word with none is not refused. -/
def Obligations.ExactlyTheIllFormedWordsAreRefused : Prop :=
  ∀ (s : State) (w : CommandWord) (x : FrameWord) (rest : List Request),
    ((∃ e, RefusalCause e w) →
      step (s.setInbox ({ agent := .c, word := w, operand := x } :: rest)) =
        .next { buffer := s.buffer, inbox := rest, response := some { status := .refused, data := 0, frame := 0 },
                answers := s.answers ++ [{ status := .refused, data := 0, frame := 0 }] }) ∧
    ((∀ e, ¬ RefusalCause e w) → ∃ i, decode w x = .ok i ∧ i.WellFormed)

/-- Derived (60_exceptions.md R156, D20; log 10): the agent that asks changes nothing but whose answer it is. -/
def Obligations.TheBlockDoesNotCheckTheAgent : Prop :=
  ∀ (s : State) (w : CommandWord) (x : FrameWord) (rest : List Request),
    (∀ t, step (s.setInbox ({ agent := .c, word := w, operand := x } :: rest)) = .next t →
      step (s.setInbox ({ agent := .t, word := w, operand := x } :: rest)) = .next (t.setAnswers s.answers)) ∧
    ∀ f, step (s.setInbox ({ agent := .c, word := w, operand := x } :: rest)) = .fault f →
      step (s.setInbox ({ agent := .t, word := w, operand := x } :: rest)) = .fault f

/-! ### Encoding -/

/-- Derived (30_encoding.md R69 to R73, D3, D5): no bit of an encoding is dropped, for every operation. -/
def Obligations.DecodeOfEncodeIsTheOperation : Prop :=
  ∀ i : Instr, i.WellFormed → decode (encodeWord i) (encodeOperand i) = .ok i

/-- Derived (30_encoding.md R69 to R73, D3, D5): every accepted word is the encoding of the operation it decodes to. -/
def Obligations.EncodeOfDecodeIsTheWord : Prop :=
  ∀ (w : CommandWord) (x : FrameWord) (i : Instr), decode w x = .ok i →
    i.WellFormed ∧ encodeWord i = w ∧ (opOf w = 6 → encodeOperand i = x)

/-- Derived (30_encoding.md R71, D3): an accepted word selects the row of its operation, and no word selects two. -/
def Obligations.EachWordSelectsAtMostOneRow : Prop :=
  (∀ (w : CommandWord) (r q : OpRow), r ∈ opTable → q ∈ opTable → r.Selects w → q.Selects w → r = q) ∧
  ∀ (w : CommandWord) (x : FrameWord) (i : Instr), decode w x = .ok i → i.row ∈ opTable ∧ i.row.Selects w

/-- Derived (60_exceptions.md R149, D7): the cause named is the first that applies, in the order of the table. -/
def Obligations.DecodeNamesTheFirstCause : Prop :=
  ∀ (w : CommandWord) (x : FrameWord) (e : DecodeError),
    decode w x = .error e ↔ RefusalCause e w ∧ ∀ e', refusalRank e' < refusalRank e → ¬ RefusalCause e' w

/-- Derived (30_encoding.md R73, D5): bit `j` of cell `i` is bit `8i + j` of the packed frame, and packing loses
nothing either way. -/
def Obligations.FramePackingKeepsEveryBit : Prop :=
  (∀ (f : Frame) (i j : Nat), i < 13 → j < 8 → (packFrame f).getLsbD (8 * i + j) = cellBit f i j) ∧
  (∀ f : Frame, unpackFrame (packFrame f) = f) ∧ ∀ x : FrameWord, packFrame (unpackFrame x) = x

/-- Derived (30_encoding.md R73, R77, D5; log 17). -/
def Obligations.ByteStreamReadsBack : Prop :=
  ∀ (w : CommandWord) (x : FrameWord) (rest : List Byte),
    readStream (streamBytes w x ++ rest) = some (w, if opOf w = 6 then x else 0, rest)

/-- Derived: words written out in 95_test_vectors.md (V-REV, V-GET, V-SET, V-NAME, V-LIFE, P1). -/
def Obligations.ListedWordsDecode : Prop :=
  decode 0x148E00 0 = .ok (.get { byteIndex := 4, bitOffset := 4, bitWidth := 4, inverted := true }) ∧
  decode 0x26C402 0 = .ok (.set { byteIndex := 6, bitOffset := 6, bitWidth := 2, inverted := false } 2) ∧
  decode 0x3000C8 0 = .ok (.namefor .mode 200) ∧
  decode 0x400000 0 = .ok .commit ∧
  decode 0x500000 0 = .ok .verify ∧
  decode 0x600000 0x0D0C0B0A090807060504030201 = .ok (.replace #v[1, 2, 3, 4, 5, 6, 7, 8, 9, 10, 11, 12, 13]) ∧
  decode 0x700000 0 = .ok .txread ∧
  decode 0x801425 0 = .ok (.rev 6 37)

/-! ### GET and SET -/

/-- Stated: 40_field_codec.md R90. -/
def Obligations.GetReturnsTheField : Prop :=
  ∀ (d : Descriptor) (s : State) (x : FrameWord),
    (d.WellFormed →
      decode (assemble 1 d.byteIndex d.bitOffset (d.bitWidth - 1) d.inverted 0) x = .ok (.get d) ∧
      ∃ v : Byte, exec (.get d) s = .next (s.setResponse (some { status := .ok, data := v, frame := 0 })) ∧
        v.toNat < 2 ^ d.bitWidth ∧
        ∀ k, k < d.bitWidth →
          v.getLsbD k = cellBit s.buffer d.byteIndex (d.bitOffset + fieldPosition d k)) ∧
    (¬ d.WellFormed →
      exec (.get d) s = .next (s.setResponse (some { status := .refused, data := 0, frame := 0 })))

/-- Stated: 40_field_codec.md R91. -/
def Obligations.SetWritesOnlyTheField : Prop :=
  ∀ (d : Descriptor) (v : Byte) (s : State) (x : FrameWord),
    (d.WellFormed →
      decode (assemble 2 d.byteIndex d.bitOffset (d.bitWidth - 1) d.inverted v) x = .ok (.set d v) ∧
      ∃ f : Frame,
        exec (.set d v) s = .next ((s.setBuffer f).setResponse (some { status := .ok, data := 0, frame := 0 })) ∧
        (∀ i, i ≠ d.byteIndex → readCell f i = readCell s.buffer i) ∧
        (∀ j, ¬ Covers d d.byteIndex j → cellBit f d.byteIndex j = cellBit s.buffer d.byteIndex j) ∧
        ∀ k, k < d.bitWidth →
          cellBit f d.byteIndex (d.bitOffset + fieldPosition d k) = v.getLsbD k) ∧
    (¬ d.WellFormed →
      exec (.set d v) s = .next (s.setResponse (some { status := .refused, data := 0, frame := 0 })))

/-- Derived (40_field_codec.md R92): the value comes back, reduced to the field's width. -/
def Obligations.GetAfterSetReturnsTheValue : Prop :=
  ∀ (d : Descriptor) (v : Byte) (s t : State), d.WellFormed → exec (.set d v) s = .next t →
    ∃ u : Byte, exec (.get d) t = .next (t.setResponse (some { status := .ok, data := u, frame := 0 })) ∧
      u.toNat = v.toNat % 2 ^ d.bitWidth

/-- Derived (40_field_codec.md R93). -/
def Obligations.SetKeepsEveryDisjointField : Prop :=
  ∀ (d e : Descriptor) (v : Byte) (s t : State), d.WellFormed → e.WellFormed → DisjointFields d e →
    exec (.set d v) s = .next t → getField t.buffer e = getField s.buffer e

/-- Derived (30_encoding.md R61, R62, R63, 40_field_codec.md R93, 70_reset_and_hazards.md R168): through the canonical
table, header cells and every other field are kept. -/
def Obligations.SetOfACanonicalFieldKeepsTheOthers : Prop :=
  ∀ (f g : FieldId) (v : Byte) (s t : State), exec (.set f.descriptor v) s = .next t →
    (∀ i, i < 4 → readCell t.buffer i = readCell s.buffer i) ∧
    (f ≠ g → getField t.buffer g.descriptor = getField s.buffer g.descriptor)

/-- Derived (40_field_codec.md R91, corner cases). -/
def Obligations.SetOfTheHeldValueChangesNoCell : Prop :=
  ∀ (d : Descriptor) (s : State), d.WellFormed →
    exec (.set d (getField s.buffer d)) s = .next (s.setResponse (some (okResponse 0)))

/-- Derived (60_exceptions.md R146): only the value modulo the width counts, for SET and for REV. -/
def Obligations.OutOfRangeValuesAreMaskedSilently : Prop :=
  (∀ (d : Descriptor) (v u : Byte) (s : State), v.toNat % 2 ^ d.bitWidth = u.toNat % 2 ^ d.bitWidth →
    exec (.set d v) s = exec (.set d u) s) ∧
  ∀ (w : Nat) (v u : Byte) (s : State), v.toNat % 2 ^ w = u.toNat % 2 ^ w → exec (.rev w v) s = exec (.rev w u) s

/-- Derived (30_encoding.md R61, R62): the rows are well formed, cover every bit of cells 4 to 12 exactly once, and none
lies in cells 0 to 3. -/
def Obligations.CanonicalFieldsPartitionTheCells : Prop :=
  (∀ f ∈ FieldId.all, f.descriptor.WellFormed ∧ 4 ≤ f.descriptor.byteIndex) ∧
  ∀ i, i < 13 → ∀ j, j < 8 →
    (FieldId.all.filter fun f => Covers f.descriptor i j).length = if 4 ≤ i then 1 else 0

/-! ### REV -/

/-- Derived (41_bit_reversal.md R100, R101, R103, D9; the refusal: log 13). -/
def Obligations.RevReversesTheBits : Prop :=
  ∀ (w : Nat) (v : Byte) (s : State),
    (RevWidth w →
      ∃ u : Byte, exec (.rev w v) s = .next (s.setResponse (some { status := .ok, data := u, frame := 0 })) ∧
        u.toNat < 2 ^ w ∧ ∀ k, k < w → u.getLsbD k = v.getLsbD (w - 1 - k)) ∧
    (¬ RevWidth w → exec (.rev w v) s = .next (s.setResponse (some { status := .refused, data := 0, frame := 0 })))

/-- Derived (41_bit_reversal.md R102): reversing the answer again gives the value, reduced to the width. -/
def Obligations.RevTwiceReturnsTheValue : Prop :=
  ∀ (w : Nat) (v u : Byte) (s : State), RevWidth w →
    exec (.rev w v) s = .next (s.setResponse (some (okResponse u))) →
      ∃ v' : Byte, exec (.rev w u) s = .next (s.setResponse (some (okResponse v'))) ∧ v'.toNat = v.toNat % 2 ^ w

/-- Derived (41_bit_reversal.md R104). -/
def Obligations.RevIsLinearOverXor : Prop :=
  ∀ (w : Nat) (a b a' b' : Byte) (s : State), RevWidth w →
    exec (.rev w a) s = .next (s.setResponse (some (okResponse a'))) →
    exec (.rev w b) s = .next (s.setResponse (some (okResponse b'))) →
      exec (.rev w (a ^^^ b)) s = .next (s.setResponse (some (okResponse (a' ^^^ b')))) ∧
      exec (.rev w 0) s = .next (s.setResponse (some (okResponse 0)))

/-! ### NAMEFOR -/

/-- Stated: 42_enum_lookup.md R110. -/
def Obligations.NameforAnswersTheConstantOrUnknown : Prop :=
  (∀ (k : Kind) (raw : Byte) (s : State) (x : FrameWord),
    decode (assemble 3 k.code 0 0 false raw) x = .ok (.namefor k raw) ∧
    ((∃ c, enumValue k c = some raw ∧
        exec (.namefor k raw) s = .next (s.setResponse (some { status := .ok, data := c.id, frame := 0 }))) ∨
     ((∀ c, enumValue k c ≠ some raw) ∧
        exec (.namefor k raw) s = .next (s.setResponse (some { status := .ok, data := 0, frame := 0 }))))) ∧
  ∀ (code : Nat) (raw : Byte) (x : FrameWord), 5 < code → code < 16 →
    decode (assemble 3 code 0 0 false raw) x = .error .reservedKind

/-- Stated: 42_enum_lookup.md R112, with what NAMEFOR then answers (R110). -/
def Obligations.NameforKnowsTheGivenConstants : Prop :=
  enumValue .mode .cool = some 1 ∧ enumValue .state .on = some 4 ∧ enumValue .fanStrength .auto = some 2 ∧
  ∀ s : State,
    exec (.namefor .mode 1) s = .next (s.setResponse (some (okResponse EnumSymbol.cool.id))) ∧
    exec (.namefor .state 4) s = .next (s.setResponse (some (okResponse EnumSymbol.on.id))) ∧
    exec (.namefor .fanStrength 2) s = .next (s.setResponse (some (okResponse EnumSymbol.auto.id)))

/-- Derived (42_enum_lookup.md R113, D12; log 6): the model's table meets the constraints, and so does no more than
that: every table that meets them stands for some choice. -/
def Obligations.TheEnumerationTableIsAnyAdmissibleOne : Prop :=
  (∀ k, (enumRow k).Admissible k) ∧
  ∀ row : Kind → EnumRow, (∀ k, (row k).Admissible k) → ∃ choice, ∀ k, chosenRow choice k = row k

/-- Derived (42_enum_lookup.md R111, R115, D27; log 6): how many values of a kind's field are unknown, and every value
too large for it. -/
def Obligations.NameforCountsOfUnknownValues : Prop :=
  (∀ k : Kind, ((List.range (2 ^ k.width)).filter fun n => symbolFor (enumRow k) (BitVec.ofNat 8 n) = .unknown).length =
    2 ^ k.width - k.constants.length) ∧
  (∀ (k : Kind) (raw : Byte), 2 ^ k.width ≤ raw.toNat → symbolFor (enumRow k) raw = .unknown) ∧
  ∀ c : EnumSymbol, c.name ≠ ""

/-- Derived (30_encoding.md R79, 42_enum_lookup.md R110, R113, R114; log 6, log 8): `set f=name`, then `show f`,
answers the name. -/
def Obligations.NamedConstantReadsBack : Prop :=
  ∀ (k : Kind) (c : EnumSymbol) (a : Byte) (i : Instr) (s t : State),
    (PseudoOp.setNamed k c).expand a = some [i] → exec i s = .next t →
      ∃ (v : Byte) (u : State),
        (PseudoOp.showField k).expand v = some [.get k.field.descriptor, .namefor k v] ∧
        exec (.get k.field.descriptor) t = .next u ∧ u.response = some (okResponse v) ∧
        exec (.namefor k v) u = .next (u.setResponse (some (okResponse c.id)))

/-! ### The checksum -/

/-- Stated: 43_checksum.md R124. -/
def Obligations.CommitStoresTheChecksum : Prop :=
  ∀ (s : State) (x : FrameWord), decode 0x400000 x = .ok .commit ∧
    ∃ f : Frame,
      exec .commit s = .next ((s.setBuffer f).setResponse (some { status := .ok, data := 0, frame := 0 })) ∧
      readCell f 12 = (readCell s.buffer 12 &&& 0xF0) ||| cks s.buffer ∧
      (∀ i, i ≠ 12 → readCell f i = readCell s.buffer i) ∧
      committed f = true ∧ (committed s.buffer = true → f = s.buffer) ∧
      ∀ (t : State), (∀ i, i ≠ 12 → readCell t.buffer i = readCell s.buffer i) →
        readCell t.buffer 12 &&& 0xF0 = readCell s.buffer 12 &&& 0xF0 →
        exec .commit t = .next ((t.setBuffer f).setResponse (some { status := .ok, data := 0, frame := 0 }))

/-- Stated: 43_checksum.md R125, with the condition of R123. -/
def Obligations.VerifyReportsTheCondition : Prop :=
  ∀ (s : State) (x : FrameWord), decode 0x500000 x = .ok .verify ∧
    (readCell s.buffer 12 &&& 0x0F = cks s.buffer →
      exec .verify s = .next (s.setResponse (some { status := .ok, data := 1, frame := 0 }))) ∧
    (readCell s.buffer 12 &&& 0x0F ≠ cks s.buffer →
      exec .verify s = .next (s.setResponse (some { status := .ok, data := 0, frame := 0 })))

/-- Derived (43_checksum.md R127): whatever the buffer, two steps of agent C, COMMIT then VERIFY, answer 1. -/
def Obligations.VerifyAnswersOneAfterCommit : Prop :=
  ∀ (s : State) (rest : List Request), s.inbox = request .c .commit :: request .c .verify :: rest →
    ∃ t, runSteps 2 s = .next t ∧ t.inbox = rest ∧ t.answers = s.answers ++ [okResponse 0, okResponse 1]

/-- Derived (43_checksum.md R122): the stored checksum bits have no part in the checksum. -/
def Obligations.ChecksumIgnoresTheStoredNibble : Prop :=
  ∀ (f g : Frame), (∀ i, i ≠ 12 → readCell f i = readCell g i) → readCell f 12 &&& 0xF0 = readCell g 12 &&& 0xF0 →
    cks f = cks g

/-- Derived (43_checksum.md R128, R129): committed exactly when, for each k below 4, the bits at positions k and k+4 of
the 13 cells have even parity. -/
def Obligations.CommittedIsEvenColumnParity : Prop :=
  ∀ f : Frame, committed f = true ↔ ∀ k, k < 4 → columnParity f k = false

/-- Derived (43_checksum.md R129): every single-bit error of a committed frame is detected, and a double one exactly
when the positions differ modulo 4. -/
def Obligations.BitErrorsDetected : Prop :=
  ∀ (f : Frame) (i j : Nat), committed f = true → i < 13 → j < 8 →
    committed (flipBit f i j) = false ∧
    ∀ i' j', i' < 13 → j' < 8 → (i, j) ≠ (i', j') →
      (committed (flipBit (flipBit f i j) i' j') = true ↔ j % 4 = j' % 4)

/-- Derived (43_checksum.md R130, 44_buffer_lifecycle.md R138). -/
def Obligations.SetMovesTheConditionByTheNibbleOfTheChange : Prop :=
  ∀ (d : Descriptor) (v : Byte) (s t : State), d.WellFormed → exec (.set d v) s = .next t →
    (committed t.buffer = true ↔
      nib (fold8 s.buffer) ^^^ nib (readCell s.buffer d.byteIndex ^^^ readCell t.buffer d.byteIndex) = 0)

/-- Derived (44_buffer_lifecycle.md R138, 70_reset_and_hazards.md R175). -/
def Obligations.SetOfTheChecksumFieldCommitsExactlyTheChecksum : Prop :=
  ∀ (v : Byte) (s t : State), exec (.set FieldId.checksum.descriptor v) s = .next t →
    (committed t.buffer = true ↔ v.toNat % 16 = (cks s.buffer).toNat)

/-! ### REPLACE and TXREAD -/

/-- Stated: 44_buffer_lifecycle.md R135. -/
def Obligations.ReplaceLoadsTheFrame : Prop :=
  ∀ (f : Frame) (s : State), decode 0x600000 (packFrame f) = .ok (.replace f) ∧
    ∃ t, exec (.replace f) s = .next t ∧ (∀ i, readCell t.buffer i = readCell f i) ∧
      t.response = some { status := .ok, data := 0, frame := 0 } ∧ t.inbox = s.inbox ∧ t.answers = s.answers ∧
      (committed t.buffer = true ↔ readCell f 12 &&& 0x0F = cks f)

/-- Derived (44_buffer_lifecycle.md R136, 30_encoding.md R73, D3, D14). -/
def Obligations.TxreadHandsOverACommittedFrame : Prop :=
  ∀ s : State, committed s.buffer = true →
    ∃ x : FrameWord, exec .txread s = .next (s.setResponse (some { status := .ok, data := 0, frame := x })) ∧
      ∀ i j, i < 13 → j < 8 → x.getLsbD (8 * i + j) = cellBit s.buffer i j

/-- Derived (44_buffer_lifecycle.md R137, D14; log 4): a dirty buffer is never transmitted; the fault carries what the
block answers. -/
def Obligations.TxreadOfADirtyBufferFaults : Prop :=
  ∀ s : State, committed s.buffer = false →
    exec .txread s = .fault (.staleTransmit { status := .stale, data := 0, frame := packFrame s.buffer })

/-! ### The whole machine -/

/-- Derived (60_exceptions.md R145, R150, D14): every operation goes on, with requests and answers as they were, except
a TXREAD of a dirty buffer; and no step ends in a refusal. -/
def Obligations.OnlyAStaleTransmissionStops : Prop :=
  (∀ (i : Instr) (s : State),
    (∃ t, exec i s = .next t ∧ t.inbox = s.inbox ∧ t.answers = s.answers) ∨
    (i = .txread ∧ committed s.buffer = false)) ∧
  ∀ (s : State) (q : Refusal), step s ≠ .refused q

/-- Derived (10_state.md R21, R22): a cell changes only by a SET of it, by REPLACE, or, cell 12 and of it only the
checksum bits, by COMMIT. -/
def Obligations.OnlySetCommitAndReplaceChangeCells : Prop :=
  ∀ (i : Instr) (s t : State) (j : Nat), exec i s = .next t → readCell t.buffer j ≠ readCell s.buffer j →
    (∃ d v, i = .set d v ∧ j = d.byteIndex) ∨
    (i = .commit ∧ j = 12 ∧ readCell t.buffer 12 &&& 0xF0 = readCell s.buffer 12 &&& 0xF0) ∨
    ∃ f, i = .replace f

/-- Derived (20_memory.md R48): an operation repeated at once gives the same answer and leaves the same buffer. -/
def Obligations.AnOperationRepeatedAtOnceChangesNothing : Prop :=
  ∀ (i : Instr) (s t : State), exec i s = .next t → exec i t = .next t

/-- Derived (10_state.md R22): GET and SET depend on their own cell alone, NAMEFOR and REV on none. -/
def Obligations.AnswersDependOnlyOnTheCellsRead : Prop :=
  (∀ (d : Descriptor) (v : Byte) (s t : State), readCell s.buffer d.byteIndex = readCell t.buffer d.byteIndex →
    (∃ r, exec (.get d) s = .next (s.setResponse (some r)) ∧ exec (.get d) t = .next (t.setResponse (some r))) ∧
    ∃ s' t', exec (.set d v) s = .next s' ∧ exec (.set d v) t = .next t' ∧ s'.response = t'.response ∧
      readCell s'.buffer d.byteIndex = readCell t'.buffer d.byteIndex) ∧
  ∀ (k : Kind) (w : Nat) (v : Byte) (s t : State),
    (∃ r, exec (.namefor k v) s = .next (s.setResponse (some r)) ∧
      exec (.namefor k v) t = .next (t.setResponse (some r))) ∧
    ∃ r, exec (.rev w v) s = .next (s.setResponse (some r)) ∧ exec (.rev w v) t = .next (t.setResponse (some r))

/-- Derived (44_buffer_lifecycle.md R137, 30_encoding.md R74; log 4): a frame handed over to agent C is always
committed, no answer is STALE, and a refused request gets no data and no frame. Every step keeps this. -/
def Obligations.EveryStepKeepsTheAnswersSound : Prop :=
  ∀ s t : State, s.AnswersSound → step s = .next t → t.AnswersSound

/-- Derived (10_state.md R31; log 3). -/
def Obligations.ResetAnswersAreSound : Prop := State.reset.AnswersSound

/-- Derived (70_reset_and_hazards.md R178, R180, D31; log 20): after as many steps as there are requests every one has
been taken and every one of agent C's answered, or a TXREAD answered STALE. -/
def Obligations.EveryRunEndsWithEveryAnswer : Prop :=
  ∀ s : State,
    (∃ answer, runSteps s.inbox.length s = .fault (.staleTransmit answer)) ∨
    ∃ t, runSteps s.inbox.length s = .next t ∧ t.inbox = [] ∧ Finished t ∧
      t.answers.length = s.answers.length + (presentedBy .c s.inbox).length

/-- Derived (44_buffer_lifecycle.md R139, 70_reset_and_hazards.md R170, R172): when agent T stays out, any batch of SETs,
then COMMIT, then TXREAD transmits exactly the edited frame with its checksum, and nothing goes wrong. -/
def Obligations.AnUndisturbedBatchIsTransmitted : Prop :=
  ∀ (edits : List (Descriptor × Byte)) (rest : List Request) (s : State), (∀ e ∈ edits, e.1.WellFormed) →
    s.inbox = (edits.map fun e => request .c (.set e.1 e.2)) ++ request .c .commit :: request .c .txread :: rest →
      ∃ t, runSteps (edits.length + 2) s = .next t ∧ t.inbox = rest ∧ committed t.buffer = true ∧
        t.buffer = commitFrame (edits.foldl (fun f e => setField f e.1 e.2) s.buffer) ∧
        t.answers = s.answers ++ List.replicate (edits.length + 1) (okResponse 0) ++
          [frameResponse (packFrame t.buffer)]

/-- Derived (70_reset_and_hazards.md R172, 95_test_vectors.md P5): a frame of agent T between a SET and the COMMIT
discards the SET, whatever it was, and is what is transmitted, with status OK. -/
def Obligations.AnInterposedReplaceIsTransmittedInstead : Prop :=
  ∀ (d : Descriptor) (v : Byte) (f : Frame) (rest : List Request) (s : State),
    s.inbox = request .c (.set d v) :: request .t (.replace f) :: request .c .commit :: request .c .txread :: rest →
      d.WellFormed →
      ∃ t, runSteps 4 s = .next t ∧ t.inbox = rest ∧ t.buffer = commitFrame f ∧
        t.response = some (frameResponse (packFrame (commitFrame f)))

/-- Derived (44_buffer_lifecycle.md R139, 70_reset_and_hazards.md R171): a received frame is verified and read as it
arrived, committed or not. -/
def Obligations.AReceivedFrameIsVerifiedAndReadAsItArrived : Prop :=
  ∀ (f : Frame) (d : Descriptor) (rest : List Request) (s : State), d.WellFormed →
    s.inbox = request .t (.replace f) :: request .c .verify :: request .c (.get d) :: rest →
      ∃ t, runSteps 3 s = .next t ∧ t.inbox = rest ∧ t.buffer = f ∧
        t.answers = s.answers ++ [okResponse (if committed f then 1 else 0), okResponse (getField f d)]

/-- Derived (70_reset_and_hazards.md R178, R180, 30_encoding.md R74; log 3): every operation is answered exactly once. A
step keeps the number of answers given to agent C and of agent C's requests still to come, taken together. -/
def Obligations.EveryStepKeepsTheCountOfAnswers : Prop :=
  ∀ (n : Nat) (s t : State), s.answers.length + (presentedBy .c s.inbox).length = n → step s = .next t →
    t.answers.length + (presentedBy .c t.inbox).length = n
end

