-- ==== Sys2Proof/Laws/WellFormed.lean ====
section
/-! SUPPORT. What it is for each operation to be well formed. -/

namespace Sys2Proof

@[simp] theorem wellFormed_get (d : Descriptor) : (Instr.get d).WellFormed ↔ d.WellFormed := by
  simp [Instr.WellFormed, Instr.wf]

@[simp] theorem wellFormed_set (d : Descriptor) (v : Byte) : (Instr.set d v).WellFormed ↔ d.WellFormed := by
  simp [Instr.WellFormed, Instr.wf]

@[simp] theorem wellFormed_namefor (k : Kind) (raw : Byte) : (Instr.namefor k raw).WellFormed := rfl

@[simp] theorem wellFormed_commit : Instr.commit.WellFormed := rfl

@[simp] theorem wellFormed_verify : Instr.verify.WellFormed := rfl

@[simp] theorem wellFormed_replace (f : Frame) : (Instr.replace f).WellFormed := rfl

@[simp] theorem wellFormed_txread : Instr.txread.WellFormed := rfl

@[simp] theorem wellFormed_rev (w : Nat) (v : Byte) : (Instr.rev w v).WellFormed ↔ RevWidth w := by
  simp [Instr.WellFormed, Instr.wf]

end Sys2Proof
end

