-- ==== Sys2Proof/Laws/Decode.lean ====
section
/-! SUPPORT. The fields of an assembled command word, and the slices of a packed frame. -/

namespace Sys2Proof

theorem toNat_append_eq {m n : Nat} (a : BitVec m) (b : BitVec n) : (a ++ b).toNat = a.toNat * 2 ^ n + b.toNat := by
  rw [BitVec.toNat_append, ← Nat.shiftLeft_add_eq_or_of_lt b.isLt, Nat.shiftLeft_eq]

/-! ### Command words -/

theorem wordField_eq (w : CommandWord) (lo n : Nat) : wordField w lo n = w.toNat / 2 ^ lo % 2 ^ n := by
  simp [wordField, BitVec.extractLsb'_toNat, Nat.shiftRight_eq_div_pow]

/-- An assembled word as a number: the formula of 30_encoding.md R69. -/
theorem assemble_toNat (op bi bo wm1 : Nat) (inv : Bool) (val : Byte) :
    (assemble op bi bo wm1 inv val).toNat =
      op % 16 * 2 ^ 20 + bi % 16 * 2 ^ 16 + bo % 8 * 2 ^ 13 + wm1 % 8 * 2 ^ 10 + inv.toNat * 2 ^ 9 + val.toNat := by
  unfold assemble
  simp only [toNat_append_eq, BitVec.toNat_ofNat, BitVec.toNat_ofBool]
  omega

section fields

variable (op bi bo wm1 : Nat) (inv : Bool) (val : Byte)

theorem opOf_assemble : opOf (assemble op bi bo wm1 inv val) = op % 16 := by
  have := val.isLt
  have := inv.toNat_le
  rw [opOf, wordField_eq, assemble_toNat]; omega

theorem biOf_assemble : biOf (assemble op bi bo wm1 inv val) = bi % 16 := by
  have := val.isLt
  have := inv.toNat_le
  rw [biOf, wordField_eq, assemble_toNat]; omega

theorem boOf_assemble : boOf (assemble op bi bo wm1 inv val) = bo % 8 := by
  have := val.isLt
  have := inv.toNat_le
  rw [boOf, wordField_eq, assemble_toNat]; omega

theorem wm1Of_assemble : wm1Of (assemble op bi bo wm1 inv val) = wm1 % 8 := by
  have := val.isLt
  have := inv.toNat_le
  rw [wm1Of, wordField_eq, assemble_toNat]; omega

theorem invOf_assemble : invOf (assemble op bi bo wm1 inv val) = inv.toNat := by
  have := val.isLt
  have := inv.toNat_le
  rw [invOf, wordField_eq, assemble_toNat]; omega

theorem zOf_assemble : zOf (assemble op bi bo wm1 inv val) = 0 := by
  have := val.isLt
  have := inv.toNat_le
  rw [zOf, wordField_eq, assemble_toNat]; omega

theorem valOf_assemble : valOf (assemble op bi bo wm1 inv val) = val := by
  apply BitVec.eq_of_toNat_eq
  have := val.isLt
  have := inv.toNat_le
  simp only [valOf, BitVec.extractLsb'_toNat, assemble_toNat, Nat.shiftRight_zero]; omega

end fields

/-- A word is what its fields assemble to, once bit 8 is zero (30_encoding.md R69). -/
theorem assemble_fields (w : CommandWord) (hz : zOf w = 0) :
    assemble (opOf w) (biOf w) (boOf w) (wm1Of w) (invOf w == 1) (valOf w) = w := by
  apply BitVec.eq_of_toNat_eq
  have hw := w.isLt
  have hinv : (invOf w == 1).toNat = invOf w := by
    have : invOf w < 2 := by rw [invOf, wordField_eq]; omega
    interval_cases h : invOf w <;> rfl
  rw [assemble_toNat, hinv]
  simp only [opOf, biOf, boOf, wm1Of, invOf, zOf, valOf, wordField_eq, BitVec.extractLsb'_toNat, Nat.shiftRight_zero]
    at hz ⊢
  omega

/-- The operand is looked at for REPLACE alone (30_encoding.md R77). -/
theorem decode_operand {w : CommandWord} (h : opOf w ≠ 6) (x y : FrameWord) : decode w x = decode w y := by
  unfold decode
  split <;> first | rfl | contradiction

/-! ### Packed frames -/

theorem frameSlice_toNat (x : FrameWord) (i : Nat) : (frameSlice x i).toNat = x.toNat / 2 ^ (8 * i) % 256 := by
  simp [frameSlice, BitVec.extractLsb'_toNat, Nat.shiftRight_eq_div_pow]

/-- A packed frame as a number: cell `i` has weight `2^(8i)` (30_encoding.md R73). -/
theorem packFrame_toNat (f : Frame) : (packFrame f).toNat =
    f[0].toNat + f[1].toNat * 2 ^ 8 + f[2].toNat * 2 ^ 16 + f[3].toNat * 2 ^ 24 + f[4].toNat * 2 ^ 32 +
    f[5].toNat * 2 ^ 40 + f[6].toNat * 2 ^ 48 + f[7].toNat * 2 ^ 56 + f[8].toNat * 2 ^ 64 + f[9].toNat * 2 ^ 72 +
    f[10].toNat * 2 ^ 80 + f[11].toNat * 2 ^ 88 + f[12].toNat * 2 ^ 96 := by
  unfold packFrame
  simp only [toNat_append_eq]
  omega

theorem unpackFrame_getElem (x : FrameWord) (i : Nat) (h : i < 13) : (unpackFrame x)[i] = frameSlice x i := by
  unfold unpackFrame
  interval_cases i <;> rfl

end Sys2Proof
end

