-- ==== Sys2Proof/Laws/EnumTable.lean ====
section
/-! SUPPORT. The table of enumerated values that a choice stands for: lookups and the values it draws on. -/

namespace Sys2Proof

variable {given : EnumSymbol → Option Byte} {choice : EnumSymbol → Nat}

/-- The table has the constants it was asked for, in order. -/
theorem assignValues_fst (cs : List EnumSymbol) (free : List Byte) :
    (assignValues given choice cs free).map Prod.fst = cs := by
  induction cs generalizing free with
  | nil => rfl
  | cons c cs ih =>
    unfold assignValues
    split <;> simp [ih]

/-- A given value stands in the table. -/
theorem assignValues_given {c : EnumSymbol} {v : Byte} (hg : given c = some v) {cs : List EnumSymbol} (hc : c ∈ cs)
    (free : List Byte) : (c, v) ∈ assignValues given choice cs free := by
  induction cs generalizing free with
  | nil => cases hc
  | cons d cs ih =>
    unfold assignValues
    rcases List.mem_cons.mp hc with rfl | h
    · simp [hg]
    · split <;> exact List.mem_cons_of_mem _ (ih h _)

/-- The lookup answers a constant of the table with the value, or "unknown" when there is none
(42_enum_lookup.md R110). -/
theorem symbolFor_cases (row : EnumRow) (raw : Byte) :
    (symbolFor row raw, raw) ∈ row ∨ (symbolFor row raw = .unknown ∧ ∀ c, (c, raw) ∉ row) := by
  induction row with
  | nil => exact .inr ⟨rfl, by simp⟩
  | cons p row ih =>
    obtain ⟨c, v⟩ := p
    unfold symbolFor
    split
    · rename_i h; subst h; simp
    · rename_i h
      rcases ih with h' | ⟨h', hn⟩
      · exact .inl (List.mem_cons_of_mem _ h')
      · refine .inr ⟨h', fun d hd => ?_⟩
        rcases List.mem_cons.mp hd with he | he
        · cases he; exact h rfl
        · exact hn d he

end Sys2Proof
end

