-- ==== Sys2Proof/Laws/State.lean ====
section
/-! SUPPORT. What each update of the state leaves in each field. -/

namespace Sys2Proof.Machine

variable (s : State) (f : Frame) (rs : List Request) (r : Option Response) (as : List Response)

@[simp] theorem setBuffer_buffer : (s.setBuffer f).buffer = f := rfl
@[simp] theorem setBuffer_inbox : (s.setBuffer f).inbox = s.inbox := rfl
@[simp] theorem setBuffer_response : (s.setBuffer f).response = s.response := rfl
@[simp] theorem setBuffer_answers : (s.setBuffer f).answers = s.answers := rfl

@[simp] theorem setInbox_buffer : (s.setInbox rs).buffer = s.buffer := rfl
@[simp] theorem setInbox_inbox : (s.setInbox rs).inbox = rs := rfl
@[simp] theorem setInbox_response : (s.setInbox rs).response = s.response := rfl
@[simp] theorem setInbox_answers : (s.setInbox rs).answers = s.answers := rfl

@[simp] theorem setResponse_buffer : (s.setResponse r).buffer = s.buffer := rfl
@[simp] theorem setResponse_inbox : (s.setResponse r).inbox = s.inbox := rfl
@[simp] theorem setResponse_response : (s.setResponse r).response = r := rfl
@[simp] theorem setResponse_answers : (s.setResponse r).answers = s.answers := rfl

@[simp] theorem setAnswers_buffer : (s.setAnswers as).buffer = s.buffer := rfl
@[simp] theorem setAnswers_inbox : (s.setAnswers as).inbox = s.inbox := rfl
@[simp] theorem setAnswers_response : (s.setAnswers as).response = s.response := rfl
@[simp] theorem setAnswers_answers : (s.setAnswers as).answers = as := rfl

@[simp] theorem setBuffer_self : s.setBuffer s.buffer = s := rfl

/-- Two states with the same four fields are the same. -/
theorem State.ext_fields {s t : State} (hb : s.buffer = t.buffer) (hi : s.inbox = t.inbox)
    (hr : s.response = t.response) (ha : s.answers = t.answers) : s = t := by
  cases s; cases t; simp_all

end Sys2Proof.Machine
end

