-- ==== Sys2Proof/Laws/Ops.lean ====
section
/-! SUPPORT. One lemma for all each shared operation can do: cells, answers, requests. -/

namespace Sys2Proof.Machine

/-! ### Cells -/

theorem readCell_eq_getElem (f : Frame) {i : Nat} (h : i < 13) : readCell f i = f[i] := by
  simp [readCell, h]

theorem readCell_writeCell (f : Frame) (i j : Nat) (v : Byte) :
    readCell (writeCell f i v) j = if i = j ∧ i < 13 then v else readCell f j := by
  unfold readCell writeCell
  rw [Vector.getElem?_setIfInBounds]
  by_cases hij : i = j
  · subst hij
    by_cases hi : i < 13 <;> simp [hi]
  · simp [hij]

theorem readCell_writeCell_self (f : Frame) {i : Nat} (h : i < 13) (v : Byte) : readCell (writeCell f i v) i = v := by
  simp [readCell_writeCell, h]

theorem readCell_writeCell_ne (f : Frame) {i j : Nat} (h : i ≠ j) (v : Byte) :
    readCell (writeCell f i v) j = readCell f j := by
  simp [readCell_writeCell, h]

/-- Two frames with the same 13 cells are the same. -/
theorem frame_ext {f g : Frame} (h : ∀ i, i < 13 → readCell f i = readCell g i) : f = g := by
  apply Vector.ext
  intro i hi
  have := h i hi
  rwa [readCell_eq_getElem f hi, readCell_eq_getElem g hi] at this

theorem writeCell_readCell (f : Frame) (i : Nat) : writeCell f i (readCell f i) = f := by
  apply frame_ext
  intro j _
  rw [readCell_writeCell]
  split
  · rename_i h; rw [h.1]
  · rfl

theorem writeCell_writeCell (f : Frame) (i : Nat) (u v : Byte) : writeCell (writeCell f i u) i v = writeCell f i v := by
  apply frame_ext
  intro j _
  simp only [readCell_writeCell]
  split <;> rfl

/-! ### Answers -/

/-- `complete` goes on, with the buffer and the response it is given and everything else as before. -/
theorem complete_eq_next {f : Frame} {r : Response} {s t : State} :
    complete f r s = .next t ↔ t = (s.setBuffer f).setResponse (some r) := by
  simp [complete, eq_comm]

/-- `refuse` goes on, with the response REFUSED and everything else as before. -/
theorem refuse_eq_next {s t : State} : refuse s = .next t ↔ t = s.setResponse (some refusedResponse) := by
  simp [refuse, eq_comm]

/-- What giving an answer adds to a finished operation. -/
theorem giveAnswer_eq_next {a : Agent} {o : Result} {t : State} :
    giveAnswer a o = .next t ↔ ∃ s, o = .next s ∧ t = recordAnswer a s := by
  cases o <;> simp [giveAnswer, eq_comm]

theorem giveAnswer_eq_fault {a : Agent} {o : Result} {r : Fault} : giveAnswer a o = .fault r ↔ o = .fault r := by
  cases o <;> simp [giveAnswer]

theorem giveAnswer_eq_refused {a : Agent} {o : Result} {r : Refusal} :
    giveAnswer a o = .refused r ↔ o = .refused r := by
  cases o <;> simp [giveAnswer]

@[simp] theorem recordAnswer_buffer (a : Agent) (s : State) : (recordAnswer a s).buffer = s.buffer := by
  cases a <;> rfl

@[simp] theorem recordAnswer_inbox (a : Agent) (s : State) : (recordAnswer a s).inbox = s.inbox := by
  cases a <;> rfl

@[simp] theorem recordAnswer_response (a : Agent) (s : State) : (recordAnswer a s).response = s.response := by
  cases a <;> rfl

@[simp] theorem recordAnswer_c_answers (s : State) :
    (recordAnswer .c s).answers = s.answers ++ s.response.toList := rfl

@[simp] theorem recordAnswer_t (s : State) : recordAnswer .t s = s := rfl

/-! ### Requests -/

theorem takeRequest_nil {s : State} (h : s.inbox = []) : takeRequest s = none := by
  simp [takeRequest, h]

theorem takeRequest_cons {s : State} {r : Request} {rest : List Request} (h : s.inbox = r :: rest) :
    takeRequest s = some (r, (s.setInbox rest).setResponse none) := by
  simp [takeRequest, h]

end Sys2Proof.Machine
end

