-- ==== Sys2Proof/Laws/Flags.lean ====
section
/-! SUPPORT. The fold of a frame, cell by cell, and how writing one cell changes it. -/

namespace Sys2Proof.Machine

/-- The fold, written out (43_checksum.md R120). -/
theorem fold8_eq (f : Frame) :
    fold8 f = f[0] ^^^ f[1] ^^^ f[2] ^^^ f[3] ^^^ f[4] ^^^ f[5] ^^^ f[6] ^^^ f[7] ^^^ f[8] ^^^ f[9] ^^^ f[10] ^^^ f[11] ^^^ f[12] := by
  obtain ⟨⟨l⟩, hl⟩ := f
  match l, hl with
  | [a0, a1, a2, a3, a4, a5, a6, a7, a8, a9, a10, a11, a12], _ => simp [fold8, Vector.toList]

/-- Writing one cell changes the fold by the difference of the cell. -/
theorem fold8_writeCell (f : Frame) {i : Nat} (hi : i < 13) (v : Byte) :
    fold8 (writeCell f i v) = fold8 f ^^^ (readCell f i ^^^ v) := by
  rw [readCell_eq_getElem f hi, fold8_eq, fold8_eq]
  unfold writeCell
  simp only [Vector.getElem_setIfInBounds]
  interval_cases i <;> simp <;> ac_nf <;> simp

/-- nib distributes over XOR (43_checksum.md R128). -/
theorem nib_xor (a b : Byte) : nib (a ^^^ b) = nib a ^^^ nib b := by
  unfold nib
  rw [BitVec.ushiftRight_xor_distrib]
  ext k
  simp
  grind

/-- Bit `k` of nib is the difference of bits `k` and `k + 4` (43_checksum.md R121). -/
theorem getLsbD_nib (x : Byte) (k : Nat) : (nib x).getLsbD k = (decide (k < 4) && (x.getLsbD k ^^ x.getLsbD (k + 4))) := by
  unfold nib
  rw [BitVec.getLsbD_and, BitVec.getLsbD_xor, BitVec.getLsbD_ushiftRight]
  have hm : (0x0F : Byte).getLsbD k = decide (k < 4) := by
    by_cases hk : k < 8
    · interval_cases k <;> decide
    · rw [BitVec.getLsbD_of_ge _ _ (by omega)]; simp; omega
  rw [hm, Nat.add_comm 4 k, Bool.and_comm]

theorem nib_low (c : Byte) (h : c.toNat < 16) : nib c = c := by
  revert c; decide

theorem committed_iff (f : Frame) : committed f = true ↔ readCell f 12 &&& 0x0F = cks f := by
  simp [committed]

end Sys2Proof.Machine
end

