-- ==== Sys2Proof/Laws/Operands.lean ====
section
/-! SUPPORT. The bits of masks, reduced values, reversed values and fields. -/

namespace Sys2Proof.Machine

theorem getLsbD_fieldMask (o w j : Nat) : (fieldMask o w).getLsbD j = decide (j < 8 ∧ o ≤ j ∧ j < o + w) := by
  unfold fieldMask
  rw [BitVec.getLsbD_ofNat, Nat.testBit_shiftLeft, Nat.one_shiftLeft, Nat.testBit_two_pow_sub_one]
  by_cases h8 : j < 8 <;> by_cases ho : o ≤ j <;> simp [h8, ho]; omega

theorem getLsbD_modWidth (w : Nat) (v : Byte) (j : Nat) : (modWidth w v).getLsbD j = (decide (j < w) && v.getLsbD j) := by
  unfold modWidth
  rw [BitVec.getLsbD_ofNat, Nat.testBit_mod_two_pow]
  by_cases h8 : j < 8
  · simp [h8, BitVec.testBit_toNat]
  · simp [h8, BitVec.getLsbD_of_ge v j (by omega)]

theorem modWidth_toNat (w : Nat) (v : Byte) : (modWidth w v).toNat = v.toNat % 2 ^ w := by
  unfold modWidth
  have : v.toNat % 2 ^ w ≤ v.toNat := Nat.mod_le _ _
  have := v.isLt
  rw [BitVec.toNat_ofNat]
  exact Nat.mod_eq_of_lt (by omega)

/-- A value with no bit from `w` up is below `2^w`. -/
theorem toNat_lt_of_bits {w : Nat} {v : Byte} (h : ∀ j, w ≤ j → v.getLsbD j = false) : v.toNat < 2 ^ w :=
  Nat.lt_pow_two_of_testBit _ fun j hj => by rw [BitVec.testBit_toNat]; exact h j hj

/-- The terms up to `n` give the bits below `n`. -/
theorem getLsbD_revTerms (w : Nat) (v : Byte) (n j : Nat) (hn : n ≤ 8) :
    (revTerms w v n).getLsbD j = (decide (j < n) && v.getLsbD (w - 1 - j)) := by
  induction n with
  | zero => simp [revTerms]
  | succ n ih =>
    have hone : (1 : Byte).getLsbD (j - n) = decide (j - n = 0) := by
      rw [show (1 : Byte) = 1#8 from rfl, BitVec.getLsbD_one]; simp
    rw [revTerms, BitVec.getLsbD_or, ih (by omega), BitVec.getLsbD_shiftLeft, BitVec.getLsbD_and,
      BitVec.getLsbD_ushiftRight, hone]
    by_cases h1 : j < n
    · simp [h1, Nat.lt_succ_of_lt h1]
    · by_cases h2 : j = n
      · subst h2
        simp [show j < 8 by omega]
      · simp [h1, show ¬ j < n + 1 by omega, show ¬ j - n = 0 by omega]

/-- Bit `j` of the reversal is bit `w - 1 - j` of the value (41_bit_reversal.md R100). -/
theorem getLsbD_revBits {w : Nat} (hw : w ≤ 8) (v : Byte) (j : Nat) :
    (revBits w v).getLsbD j = (decide (j < w) && v.getLsbD (w - 1 - j)) :=
  getLsbD_revTerms w v w j hw

theorem getLsbD_storedForm {d : Descriptor} (hd : d.WellFormed) (v : Byte) (j : Nat) :
    (storedForm d v).getLsbD j =
      (decide (j < d.bitWidth) && v.getLsbD (if d.inverted then d.bitWidth - 1 - j else j)) := by
  have hw : d.bitWidth ≤ 8 := hd.2.2.2.1
  unfold storedForm
  by_cases hi : d.inverted = true
  · by_cases hj : j < d.bitWidth
    · simp [hi, getLsbD_revBits hw, getLsbD_modWidth, hj, show d.bitWidth - 1 - j < d.bitWidth by omega]
    · simp [hi, getLsbD_revBits hw, hj]
  · simp [hi, getLsbD_modWidth]

theorem getLsbD_logicalForm {d : Descriptor} (hd : d.WellFormed) (raw : Byte)
    (hraw : ∀ j, d.bitWidth ≤ j → raw.getLsbD j = false) (j : Nat) :
    (logicalForm d raw).getLsbD j =
      (decide (j < d.bitWidth) && raw.getLsbD (if d.inverted then d.bitWidth - 1 - j else j)) := by
  have hw : d.bitWidth ≤ 8 := hd.2.2.2.1
  unfold logicalForm
  by_cases hi : d.inverted = true
  · simp [hi, getLsbD_revBits hw]
  · by_cases hj : j < d.bitWidth
    · simp [hi, hj]
    · simp [hi, hj, hraw j (by omega)]

/-- The bits of a field's value are the field's bits of its cell (40_field_codec.md R90). -/
theorem getLsbD_getField {d : Descriptor} (hd : d.WellFormed) (f : Frame) (j : Nat) :
    (getField f d).getLsbD j =
      (decide (j < d.bitWidth) &&
        (readCell f d.byteIndex).getLsbD (d.bitOffset + if d.inverted then d.bitWidth - 1 - j else j)) := by
  obtain ⟨-, -, -, -, hsum⟩ := id hd
  have hbits : ∀ k, ((readCell f d.byteIndex &&& fieldMask d.bitOffset d.bitWidth) >>> d.bitOffset).getLsbD k =
      ((readCell f d.byteIndex).getLsbD (d.bitOffset + k) && decide (k < d.bitWidth)) := by
    intro k
    rw [BitVec.getLsbD_ushiftRight, BitVec.getLsbD_and, getLsbD_fieldMask]
    congr 1
    simp only [decide_eq_decide]
    omega
  unfold getField
  rw [getLsbD_logicalForm hd _ (by intro k hk; rw [hbits]; simp [show ¬ k < d.bitWidth by omega]), hbits]
  by_cases hj : j < d.bitWidth
  · by_cases hi : d.inverted = true
    · simp [hj, hi, show d.bitWidth - 1 - j < d.bitWidth by omega]
    · simp [hj, hi]
  · simp [hj]

/-- The bits of a cell after a field of it is set: the field's bits from the value, the others as before
(40_field_codec.md R91). -/
theorem getLsbD_insertField {d : Descriptor} (hd : d.WellFormed) (b v : Byte) (j : Nat) (hj : j < 8) :
    (insertField b d v).getLsbD j =
      if d.bitOffset ≤ j ∧ j < d.bitOffset + d.bitWidth then
        v.getLsbD (if d.inverted then d.bitWidth - 1 - (j - d.bitOffset) else j - d.bitOffset)
      else b.getLsbD j := by
  unfold insertField
  rw [BitVec.getLsbD_or, BitVec.getLsbD_and, BitVec.getLsbD_not, getLsbD_fieldMask, BitVec.getLsbD_shiftLeft,
    getLsbD_storedForm hd]
  by_cases h1 : d.bitOffset ≤ j
  · by_cases h2 : j < d.bitOffset + d.bitWidth
    · simp [hj, h1, h2, show ¬ j < d.bitOffset by omega, show j - d.bitOffset < d.bitWidth by omega]
    · simp [hj, h1, h2, show ¬ j - d.bitOffset < d.bitWidth by omega]
  · simp [hj, h1, show j < d.bitOffset by omega]

theorem readCell_setField (f : Frame) (d : Descriptor) (v : Byte) (j : Nat) :
    readCell (setField f d v) j =
      if d.byteIndex = j ∧ d.byteIndex < 13 then insertField (readCell f d.byteIndex) d v else readCell f j :=
  readCell_writeCell f d.byteIndex j _

end Sys2Proof.Machine
end

