-- ==== Sys2Proof/Laws/PerInstr.lean ====
section
/-! SUPPORT. One statement for all operations, one lemma per constructor: an encoded operation selects its own row of
the opcode table. -/

namespace Sys2Proof.Laws.TableRow

/-- The word of the operation selects the operation's row: `w & mask = match` (30_encoding.md R71). -/
def Statement (i : Instr) : Prop := i.row.Selects (encodeWord i)

/-- A word with the right OP and zeros where the row asks for them selects the row. -/
theorem selects_of_bits {r : OpRow} {w : CommandWord} (h : ∀ k, k < 24 → (w.getLsbD k && r.mask.getLsbD k) = r.pattern.getLsbD k) :
    r.Selects w := by
  apply BitVec.eq_of_getLsbD_eq
  intro k hk
  rw [BitVec.getLsbD_and]
  exact h k hk

theorem get (d : Descriptor) : Statement (.get d) := by
  apply selects_of_bits
  intro j hj
  simp only [encodeWord, assemble, Instr.row, rowGet]
  simp only [BitVec.getLsbD_append]
  interval_cases j <;> simp

theorem set (d : Descriptor) (v : Byte) : Statement (.set d v) := by
  apply selects_of_bits
  intro j hj
  simp only [encodeWord, assemble, Instr.row, rowSet]
  simp only [BitVec.getLsbD_append]
  interval_cases j <;> simp

theorem namefor (k : Kind) (raw : Byte) : Statement (.namefor k raw) := by
  apply selects_of_bits
  intro j hj
  simp only [encodeWord, assemble, Instr.row, rowNamefor]
  simp only [BitVec.getLsbD_append]
  interval_cases j <;> simp

theorem rev (w : Nat) (v : Byte) : Statement (.rev w v) := by
  apply selects_of_bits
  intro j hj
  simp only [encodeWord, assemble, Instr.row, rowRev]
  simp only [BitVec.getLsbD_append]
  interval_cases j <;> simp

theorem commit : Statement .commit := by unfold Statement; decide

theorem verify : Statement .verify := by unfold Statement; decide

theorem txread : Statement .txread := by unfold Statement; decide

theorem replace (f : Frame) : Statement (.replace f) := by
  change rowReplace.Selects (assemble 6 0 0 0 false 0)
  decide

/-- Every operation's word selects its row. -/
theorem every (i : Instr) : Statement i := by
  cases i with
  | get d => exact get d
  | set d v => exact set d v
  | namefor k raw => exact namefor k raw
  | commit => exact commit
  | verify => exact verify
  | replace f => exact replace f
  | txread => exact txread
  | rev w v => exact rev w v

end Sys2Proof.Laws.TableRow
end

