-- ==== Sys2Proof/Laws/Step.lean ====
section
/-! SUPPORT. What an operation and a step can do, said once: later proofs split these cases and unfold nothing. -/

namespace Sys2Proof.Machine

/-- Every operation but TXREAD of a dirty buffer goes on, with a new buffer and a response and nothing else changed. -/
theorem exec_cases (i : Instr) (s : State) :
    (∃ f r, exec i s = .next ((s.setBuffer f).setResponse (some r))) ∨
    (i = .txread ∧ committed s.buffer = false ∧ exec i s = staleTransmit (packFrame s.buffer)) := by
  cases i with
  | get d =>
    left
    by_cases h : d.WellFormed
    · exact ⟨_, _, by simp only [exec, execGet, if_pos h]; rfl⟩
    · exact ⟨s.buffer, _, by simp only [exec, execGet, if_neg h]; rfl⟩
  | set d v =>
    left
    by_cases h : d.WellFormed
    · exact ⟨_, _, by simp only [exec, execSet, if_pos h]; rfl⟩
    · exact ⟨s.buffer, _, by simp only [exec, execSet, if_neg h]; rfl⟩
  | rev w v =>
    left
    by_cases h : RevWidth w
    · exact ⟨_, _, by simp only [exec, execRev, if_pos h]; rfl⟩
    · exact ⟨s.buffer, _, by simp only [exec, execRev, if_neg h]; rfl⟩
  | namefor k raw => exact .inl ⟨_, _, rfl⟩
  | commit => exact .inl ⟨_, _, rfl⟩
  | verify => exact .inl ⟨_, _, rfl⟩
  | replace f => exact .inl ⟨_, _, rfl⟩
  | txread =>
    by_cases h : committed s.buffer = true
    · exact .inl ⟨_, _, by simp only [exec, execTxread, if_pos h]; rfl⟩
    · exact .inr ⟨rfl, by simpa using h, by simp only [exec, execTxread, if_neg h]⟩

/-- With nothing presented, a step leaves the block idle. -/
theorem step_nil {s : State} (h : s.inbox = []) : step s = .next (idle s) := by
  simp [step, takeRequest_nil h]

/-- With a request presented, a step takes it, performs it and answers it. -/
theorem step_cons {s : State} {r : Request} {rest : List Request} (h : s.inbox = r :: rest) :
    step s = giveAnswer r.agent (perform r ((s.setInbox rest).setResponse none)) := by
  simp [step, takeRequest_cons h]

theorem perform_ok {r : Request} {i : Instr} (h : decode r.word r.operand = .ok i) (s : State) :
    perform r s = exec i s := by
  simp [perform, h]

theorem perform_error {r : Request} {e : DecodeError} (h : decode r.word r.operand = .error e) (s : State) :
    perform r s = refuse s := by
  simp [perform, h]

end Sys2Proof.Machine
end

