-- ==== Sys2Proof/Laws/Run.lean ====
section
/-! SUPPORT. Runs, one step at a time. -/

namespace Sys2Proof.Machine

theorem coreRun_next {M : Host.Core} {n : Nat} {s t : M.State} (h : M.step s = .next t) :
    M.run (n + 1) s = M.run n t := by
  rw [Host.Core.run, h]

theorem coreRun_fault {M : Host.Core} {n : Nat} {s : M.State} {r : M.Fault} (h : M.step s = .fault r) :
    M.run (n + 1) s = .fault r := by
  rw [Host.Core.run, h]

theorem coreRun_refused {M : Host.Core} {n : Nat} {s : M.State} {r : M.Refusal} (h : M.step s = .refused r) :
    M.run (n + 1) s = .refused r := by
  rw [Host.Core.run, h]

/-- The run of this model is the run of the host's interface. -/
theorem runSteps_eq_coreRun (n : Nat) (s : State) : runSteps n s = Host.Core.run Sys2Proof.core n s := by
  induction n generalizing s with
  | zero => rfl
  | succ n ih =>
    unfold runSteps
    cases h : step s with
    | next t => exact (ih t).trans (coreRun_next (M := Sys2Proof.core) h).symm
    | fault r => exact (coreRun_fault (M := Sys2Proof.core) h).symm
    | refused r => exact (coreRun_refused (M := Sys2Proof.core) h).symm

@[simp] theorem runSteps_zero (s : State) : runSteps 0 s = .next s := rfl

/-- A run of one more step is a step and the run of the rest. -/
theorem runSteps_succ (n : Nat) (s : State) : runSteps (n + 1) s =
    match step s with
    | .next t => runSteps n t
    | .fault r => .fault r
    | .refused r => .refused r := rfl

theorem runSteps_next {n : Nat} {s t : State} (h : step s = .next t) : runSteps (n + 1) s = runSteps n t := by
  rw [runSteps_succ, h]

theorem runSteps_fault {n : Nat} {s : State} {r : Fault} (h : step s = .fault r) :
    runSteps (n + 1) s = .fault r := by
  rw [runSteps_succ, h]

/-- The step of a request of agent C whose operation goes on: its response is the next of agent C's answers. -/
theorem step_of_c {s : State} {i : Instr} {rest : List Request} {f : Frame} {r : Response}
    (h : s.inbox = request .c i :: rest) (hd : decode (encodeWord i) (encodeOperand i) = .ok i)
    (he : ∀ t : State, t.buffer = s.buffer → exec i t = complete f r t) :
    step s = .next { buffer := f, inbox := rest, response := some r, answers := s.answers ++ [r] } := by
  rw [step_cons h, perform_ok (r := request .c i) hd, he ((s.setInbox rest).setResponse none) rfl]
  rfl

/-- The step of a request of agent T whose operation goes on: no answer of agent C is added. -/
theorem step_of_t {s : State} {i : Instr} {rest : List Request} {f : Frame} {r : Response}
    (h : s.inbox = request .t i :: rest) (hd : decode (encodeWord i) (encodeOperand i) = .ok i)
    (he : ∀ t : State, t.buffer = s.buffer → exec i t = complete f r t) :
    step s = .next { buffer := f, inbox := rest, response := some r, answers := s.answers } := by
  rw [step_cons h, perform_ok (r := request .t i) hd, he ((s.setInbox rest).setResponse none) rfl]
  rfl

end Sys2Proof.Machine
end

