-- ==== Sys2Proof/Machine/Listing.lean ====
section
/-! DEFINITION. The textual form of operations and pseudo-operations: reading and writing a line of a listing
(30_encoding.md R78, R79; DESIGN CHOICE, log 18). No step depends on it. -/

namespace Sys2Proof.Listing

/-! ### Pieces of a line -/

/-- The pieces of a text between separators. -/
def splitAt (sep : Char) : List Char → List (List Char)
  | [] => [[]]
  | c :: cs =>
    match splitAt sep cs with
    | [] => []
    | w :: ws => if c = sep then [] :: w :: ws else (c :: w) :: ws

/-- The words of a line, without the comma that ends an operand; what follows `->` is the result and no operand. -/
def words (line : String) : List (List Char) :=
  (((splitAt ' ' line.toList).filter fun w => !w.isEmpty).takeWhile fun w => w ≠ ['-', '>']).map fun w =>
    if w.getLast? = some ',' then w.dropLast else w

/-- Letters in one case: names are read in upper or lower case (30_encoding.md R78). -/
def lower (w : List Char) : List Char := w.map Char.toLower

/-! ### Numbers -/

def digitValue (c : Char) : Option Nat :=
  if '0' ≤ c ∧ c ≤ '9' then some (c.toNat - '0'.toNat)
  else if 'a' ≤ c ∧ c ≤ 'f' then some (c.toNat - 'a'.toNat + 10)
  else if 'A' ≤ c ∧ c ≤ 'F' then some (c.toNat - 'A'.toNat + 10)
  else none

/-- Digits in a base, after a number already read. -/
def readDigits (base : Nat) : Nat → List Char → Option Nat
  | n, [] => some n
  | n, c :: cs =>
    match digitValue c with
    | some d => if d < base then readDigits base (n * base + d) cs else none
    | none => none

def readBase (base : Nat) (cs : List Char) : Option Nat := if cs.isEmpty then none else readDigits base 0 cs

/-- A number: `0x` hexadecimal, `0b` binary, otherwise decimal (30_encoding.md R78). -/
def readNumber : List Char → Option Nat
  | '0' :: 'x' :: cs => readBase 16 cs
  | '0' :: 'b' :: cs => readBase 2 cs
  | cs => readBase 10 cs

/-- A VAL operand of SET or REV: the low 8 bits of the number (30_encoding.md R72). -/
def readValue (cs : List Char) : Option Byte := (readNumber cs).map (BitVec.ofNat 8)

/-- A raw value of NAMEFOR: 0 to 255 (42_enum_lookup.md R110). -/
def readRaw (cs : List Char) : Option Byte :=
  match readNumber cs with
  | some n => if n < 256 then some (BitVec.ofNat 8 n) else none
  | none => none

/-- A byte of a frame: two hexadecimal digits (00_scope.md section 5). -/
def readFrameByte (cs : List Char) : Option Byte :=
  if cs.length = 2 then (readBase 16 cs).map (BitVec.ofNat 8) else none

/-! ### Operands -/

/-- A literal descriptor `[i:o:w]` or `[i:o:w,inv]` (30_encoding.md R78). -/
def readLiteral (cs : List Char) : Option Descriptor :=
  if cs.head? = some '[' ∧ cs.getLast? = some ']' then
    let parts := splitAt ',' cs.tail.dropLast
    match parts.map (splitAt ':') with
    | [[i, o, w]] => do return ⟨← readNumber i, ← readNumber o, ← readNumber w, false⟩
    | [[i, o, w], [['i', 'n', 'v']]] => do return ⟨← readNumber i, ← readNumber o, ← readNumber w, true⟩
    | _ => none
  else none

def readFieldName (cs : List Char) : Option FieldId := FieldId.all.find? fun f => lower f.name.toList == lower cs

/-- A field: a name of 30_encoding.md R61 or a literal descriptor. -/
def readField (cs : List Char) : Option Descriptor :=
  match readFieldName cs with
  | some f => some f.descriptor
  | none => readLiteral cs

def readKind (cs : List Char) : Option Kind := Kind.all.find? fun k => lower k.name.toList == lower cs

def readConstant (k : Kind) (cs : List Char) : Option EnumSymbol :=
  k.constants.find? fun c => c.name.toList == lower cs

/-- The 13 bytes of a frame in cell order. -/
def readFrame : List (List Char) → Option Frame
  | [b0, b1, b2, b3, b4, b5, b6, b7, b8, b9, b10, b11, b12] => do
    return #v[← readFrameByte b0, ← readFrameByte b1, ← readFrameByte b2, ← readFrameByte b3, ← readFrameByte b4,
      ← readFrameByte b5, ← readFrameByte b6, ← readFrameByte b7, ← readFrameByte b8, ← readFrameByte b9,
      ← readFrameByte b10, ← readFrameByte b11, ← readFrameByte b12]
  | _ => none

/-! ### Lines -/

/-- What a line of a listing spells. -/
inductive Line where
  | op (i : Instr)
  | pseudo (p : PseudoOp)
deriving DecidableEq, Repr

/-- The operand of `set` when it is `field=name` (30_encoding.md R79). -/
def readNamed (cs : List Char) : Option Line :=
  match splitAt '=' cs with
  | [f, n] => do
    let k ← readKind f
    return .pseudo (.setNamed k (← readConstant k n))
  | _ => none

/-- A line of a listing (30_encoding.md R78, R79); `none` when it is of no form given there. -/
def readLine (line : String) : Option Line :=
  match words line with
  | [] => none
  | m :: operands =>
    match String.ofList (lower m), operands with
    | "get", [f] => do return .op (.get (← readField f))
    | "set", [f, v] => do return .op (.set (← readField f) (← readValue v))
    | "set", [e] => readNamed e
    | "namefor", [k, v] => do return .op (.namefor (← readKind k) (← readRaw v))
    | "rev", [w, v] => do return .op (.rev (← readNumber w) (← readValue v))
    | "commit", [] => some (.op .commit)
    | "verify", [] => some (.op .verify)
    | "txread", [] => some (.op .txread)
    | "replace", bs => do return .op (.replace (← readFrame bs))
    | "show", [f] => do return .pseudo (.showField (← readKind f))
    | "send", [] => some (.pseudo .send)
    | "recv", bs => do return .pseudo (.recv (← readFrame bs))
    | _, _ => none

/-! ### Writing a line -/

def hexDigit (n : Nat) : String := ["0", "1", "2", "3", "4", "5", "6", "7", "8", "9", "A", "B", "C", "D", "E", "F"].getD n ""

def writeFrameByte (b : Byte) : String := hexDigit (b.toNat / 16) ++ hexDigit (b.toNat % 16)

def writeDecimal (n : Nat) : String := String.ofList (Nat.toDigits 10 n)

/-- A descriptor: the field's name where the canonical table has it, otherwise literally. -/
def writeField (d : Descriptor) : String :=
  match FieldId.all.find? fun f => f.descriptor == d with
  | some f => f.name
  | none =>
    "[" ++ writeDecimal d.byteIndex ++ ":" ++ writeDecimal d.bitOffset ++ ":" ++ writeDecimal d.bitWidth ++
      (if d.inverted then ",inv]" else "]")

def writeFrame (f : Frame) : String := f.toList.foldl (fun s b => s ++ " " ++ writeFrameByte b) ""

/-- The line of an operation (30_encoding.md R78). -/
def writeInstr : Instr → String
  | .get d => "get " ++ writeField d
  | .set d v => "set " ++ writeField d ++ ", " ++ writeDecimal v.toNat
  | .namefor k raw => "namefor " ++ k.name ++ ", " ++ writeDecimal raw.toNat
  | .commit => "commit"
  | .verify => "verify"
  | .replace f => "replace" ++ writeFrame f
  | .txread => "txread"
  | .rev w v => "rev " ++ writeDecimal w ++ ", " ++ writeDecimal v.toNat

end Sys2Proof.Listing
end

