-- ==== Sys2Proof/Tests/Slice0.lean ====
section
/-! SUPPORT. Small tests with the spec's own expected values, and a witness for the hypotheses of each statement. -/

namespace Sys2Proof.Tests

open Sys2Proof Sys2Proof.Machine

/-! ### Small states -/

/-- Buffer G of 95_test_vectors.md V-GET. -/
def bufferG : Frame := #v[0xDE, 0xAD, 0xBE, 0xEF, 0xA5, 0x5A, 0x3C, 0xC3, 0x96, 0x69, 0xF0, 0x0F, 0x81]

/-- The frame of 95_test_vectors.md S2, its checksum wrong. -/
def frameS2 : Frame := #v[1, 2, 3, 4, 5, 6, 7, 8, 9, 10, 11, 12, 0]

/-- The frame of 95_test_vectors.md S2 after its COMMIT. -/
def frameS2Committed : Frame := #v[1, 2, 3, 4, 5, 6, 7, 8, 9, 10, 11, 12, 0x0C]

def withBuffer (f : Frame) : State := State.reset.setBuffer f

def responseOf : Result → Option Response
  | .next s => s.response
  | .fault (.staleTransmit r) => some r
  | .refused _ => none

def bufferOf : Result → Option Frame
  | .next s => some s.buffer
  | .fault _ => none
  | .refused _ => none

/-! ### Well-formedness: an ill-formed term for each check (20_memory.md R45, 41_bit_reversal.md R103) -/

theorem test_wf_byteIndex_13 : ¬ (Instr.get ⟨13, 0, 1, false⟩).WellFormed := by decide
theorem test_wf_bitOffset_8 : ¬ (Instr.get ⟨4, 8, 1, false⟩).WellFormed := by decide
theorem test_wf_bitWidth_0 : ¬ (Instr.set ⟨4, 0, 0, false⟩ 0).WellFormed := by decide
theorem test_wf_bitWidth_9 : ¬ (Instr.set ⟨4, 0, 9, false⟩ 0).WellFormed := by decide
theorem test_wf_crosses_cell : ¬ (Instr.get ⟨4, 4, 5, false⟩).WellFormed := by decide
theorem test_wf_rev_0 : ¬ (Instr.rev 0 0).WellFormed := by decide
theorem test_wf_rev_9 : ¬ (Instr.rev 9 0).WellFormed := by decide

/-! ### Decoding: words written out bit by bit, OP BI BO WM1 INV Z VAL (30_encoding.md R69 to R71) -/

/-- `get TIME_HOURS`, [7:3:5,inv]: 0001 0111 011 100 1 0 00000000, the 0x177200 of V-GET. -/
theorem test_decode_get : decode 0b000101110111001000000000 0 = .ok (.get ⟨7, 3, 5, true⟩) := by decide

/-- `set ROTATE, 0x15`, [8:5:3]: 0010 1000 101 010 0 0 00010101, the 0x28A815 of V-SET. -/
theorem test_decode_set : decode 0b001010001010100000010101 0 = .ok (.set ⟨8, 5, 3, false⟩ 0x15) := by decide

/-- `namefor CLEAN, 255`: 0011 0101 000 000 0 0 11111111, the 0x3500FF of V-NAME. -/
theorem test_decode_namefor : decode 0b001101010000000011111111 0 = .ok (.namefor .clean 255) := by decide

/-- `commit`: 0100 and zeros. -/
theorem test_decode_commit : decode 0b010000000000000000000000 0 = .ok .commit := by decide

/-- `verify`: 0101 and zeros. -/
theorem test_decode_verify : decode 0b010100000000000000000000 0 = .ok .verify := by decide

/-- `replace`: 0110 and zeros, with the 104-bit frame value that R73's vector writes out. -/
theorem test_decode_replace : decode 0b011000000000000000000000 0x0D0C0B0A090807060504030201 =
    .ok (.replace #v[1, 2, 3, 4, 5, 6, 7, 8, 9, 10, 11, 12, 13]) := by decide

/-- `txread`: 0111 and zeros. -/
theorem test_decode_txread : decode 0b011100000000000000000000 0 = .ok .txread := by decide

/-- `rev 7, 0x35`: 1000 0000 000 110 0 0 00110101, the 0x801835 of V-REV. -/
theorem test_decode_rev : decode 0b100000000001100000110101 0 = .ok (.rev 7 0x35) := by decide

/-- Refused words of V-REF, one for each cause. -/
theorem test_decode_refused :
    decode 0x900000 0 = .error .reservedOp ∧ decode 0x16C401 0 = .error .mustBeZero ∧
    decode 0x1D0000 0 = .error .byteIndexRange ∧ decode 0x149000 0 = .error .crossesCell ∧
    decode 0x360001 0 = .error .reservedKind := by decide

/-- No two rows of the opcode table select the same OP (30_encoding.md R71). -/
theorem test_rows_distinct : opTable.Pairwise fun r q => r.pattern &&& 0xF00000 ≠ q.pattern &&& 0xF00000 := by decide

/-- The host's numbering: the word of `get MODE` in the table's 24 bits. -/
theorem test_decodeTableWord : decodeTableWord 24 0x16C400 = some (.get ⟨6, 6, 2, false⟩) := by decide

/-- The byte stream of P2 step 1: the word most significant byte first, then the cells (30_encoding.md R73). -/
theorem test_stream : streamBytes 0x600000 (packFrame frameS2) =
    [0x60, 0x00, 0x00, 1, 2, 3, 4, 5, 6, 7, 8, 9, 10, 11, 12, 0] := by decide

/-! ### Operations: one step each, with the values of 95_test_vectors.md -/

/-- V-GET, `get ABS_TEMP`: raw 0b1010, reversed 5. -/
theorem test_get_inverted : responseOf (exec (.get FieldId.absTemp.descriptor) (withBuffer bufferG)) = some ⟨.ok, 5, 0⟩ := by
  decide

/-- V-GET, `get [9:0:8,inv]`: 0x69 reversed end to end. -/
theorem test_get_whole_cell : responseOf (exec (.get ⟨9, 0, 8, true⟩) (withBuffer bufferG)) = some ⟨.ok, 0x96, 0⟩ := by
  decide

/-- V-SET, `set TIME_HOURS, 0xFF`: masked, cell 7 0xC3 becomes 0xFB. -/
theorem test_set_masks : (bufferOf (exec (.set FieldId.timeHours.descriptor 0xFF) (withBuffer bufferG))).map (readCell · 7) =
    some 0xFB := by decide

/-- P3 step 3, `set TIME_MINUTES, 37`: cell 10 becomes 0xA4. -/
theorem test_set_inverted : (bufferOf (exec (.set FieldId.timeMinutes.descriptor 37) State.reset)).map (readCell · 10) =
    some 0xA4 := by decide

/-- S2: the checksum nibble of bytes 1 to 12 is 0xC. -/
theorem test_commit_S2 : bufferOf (exec .commit (withBuffer frameS2)) = some frameS2Committed := by decide

/-- V-CKS: cell 12 = 0xA7 becomes 0xAA; its high nibble is folded in and kept. -/
theorem test_commit_high_nibble :
    (bufferOf (exec .commit (withBuffer (writeCell State.reset.buffer 12 0xA7)))).map (readCell · 12) = some 0xAA := by decide

/-- S4: VERIFY of the frame with the wrong checksum. -/
theorem test_verify_wrong : responseOf (exec .verify (withBuffer frameS2)) = some ⟨.ok, 0, 0⟩ := by decide

/-- V-CKS: thirteen bytes 0xFF are committed. -/
theorem test_verify_all_ones : responseOf (exec .verify (withBuffer (Vector.replicate 13 0xFF))) = some ⟨.ok, 1, 0⟩ := by
  decide

/-- V-LIFE: REPLACE leaves the frame as it is given, checksum and all. -/
theorem test_replace : bufferOf (exec (.replace frameS2) (withBuffer bufferG)) = some frameS2 := by decide

/-- V-LIFE: TXREAD of a committed frame, packed with cell 0 in the low byte. -/
theorem test_txread : responseOf (exec .txread (withBuffer frameS2Committed)) =
    some ⟨.ok, 0, 0x0C0C0B0A090807060504030201⟩ := by decide

/-- V-LIFE: TXREAD of a dirty frame is STALE, and the fault StaleTransmit. -/
theorem test_txread_stale : exec .txread (withBuffer frameS2) =
    .fault (.staleTransmit ⟨.stale, 0, 0x000C0B0A090807060504030201⟩) := by rfl

/-- V-REV, `rev 6, 37` is 41. -/
theorem test_rev : responseOf (exec (.rev 6 37) State.reset) = some ⟨.ok, 41, 0⟩ := by decide

/-- V-REV, `rev 4, 0x13`: masked to 3 first, 12. -/
theorem test_rev_masks : responseOf (exec (.rev 4 0x13) State.reset) = some ⟨.ok, 12, 0⟩ := by decide

/-- The table EV_TEST of V-NAME: invented there for testing, used for no claim about the block. -/
def evTest : Kind → EnumRow
  | .mode => [(.fan, 0), (.heat, 2), (.cool, 1), (.dry, 3)]
  | .state => [(.on, 4), (.off, 0), (.command, 1), (.fullEffectOn, 2), (.fullEffectOff, 3)]
  | .rotate => [(.on, 0), (.off, 1), (.swing, 2)]
  | .fanStrength => [(.slow, 0), (.medium, 1), (.fast, 3), (.auto, 2)]
  | .ion => [(.on, 1), (.off, 0)]
  | .clean => [(.on, 1), (.off, 0)]

/-- V-NAME under EV_TEST: `namefor STATE, 3` is 9, `namefor ROTATE, 3` is 0, `namefor MODE, 200` is 0. -/
theorem test_namefor_evTest : (symbolFor (evTest .state) 3).id = 9 ∧ (symbolFor (evTest .rotate) 3).id = 0 ∧
    (symbolFor (evTest .mode) 200).id = 0 := by decide

/-- The constants of a kind are in the table, whatever the choice: 30_encoding.md R76. -/
theorem test_enumRow_constants : (enumRow .fanStrength).map Prod.fst = [.slow, .medium, .fast, .auto] := by decide

/-! ### Steps -/

/-- P1 step 1 as the first operation after reset. -/
theorem test_step_withFetchWord : bufferOf (step (State.reset.withFetchWord 24 0x26C401)) =
    some #v[0, 0, 0, 0, 0, 0, 0x40, 0, 0, 0, 0, 0, 0] := by decide

/-- P5 step 2: agent T's REPLACE is done, and agent C gets no answer for it. -/
theorem test_step_arrival :
    step ((withBuffer bufferG).setInbox [request .t (.replace frameS2)]) =
      .next ⟨frameS2, [], some ⟨.ok, 0, 0⟩, []⟩ := by rfl

/-- V-REF: 0x26C501 is answered REFUSED and changes no cell. -/
theorem test_step_refused :
    step ((withBuffer bufferG).setInbox [⟨.c, 0x26C501, 0⟩]) =
      .next ⟨bufferG, [], some ⟨.refused, 0, 0⟩, [⟨.refused, 0, 0⟩]⟩ := by rfl

/-! ### Listings (30_encoding.md R78, R79) -/

theorem test_listing_set : Listing.readLine "set [2:0:8], 0x77" = some (.op (.set ⟨2, 0, 8, false⟩ 0x77)) := by decide
theorem test_listing_get : Listing.readLine "get TIME_HOURS -> 16" = some (.op (.get ⟨7, 3, 5, true⟩)) := by decide
theorem test_listing_named : Listing.readLine "set mode=cool" = some (.pseudo (.setNamed .mode .cool)) := by decide
theorem test_listing_replace : Listing.readLine "replace 01 02 03 04 05 06 07 08 09 0A 0B 0C 00" =
    some (.op (.replace frameS2)) := by decide
theorem test_listing_write : Listing.writeInstr (.set ⟨3, 4, 4, true⟩ 200) = "set [3:4:4,inv], 200" := by decide

/-! ### Witnesses: a state and operands that meet the hypotheses of each statement -/

/-- `set MODE, 1` from reset: the state of P1 step 1. -/
def afterSetMode : State :=
  (State.reset.setBuffer #v[0, 0, 0, 0, 0, 0, 0x40, 0, 0, 0, 0, 0, 0]).setResponse (some ⟨.ok, 0, 0⟩)

theorem exec_setMode : exec (.set FieldId.mode.descriptor 1) State.reset = .next afterSetMode := by rfl

theorem witness_StepRunsTheDecodedOperation :
    (startRun [request .c .commit]).inbox = request .c .commit :: [] ∧
    decode (request .c .commit).word (request .c .commit).operand = .ok .commit ∧
    (∃ t, exec .commit State.reset = .next t) ∧
    (∃ f, exec .txread (withBuffer frameS2) = .fault f) ∧
    decode (request .c .txread).word (request .c .txread).operand = .ok .txread :=
  ⟨rfl, by decide, ⟨_, rfl⟩, ⟨_, rfl⟩, by decide⟩

theorem witness_StepWithoutARequestIsIdle : State.reset.inbox = [] := rfl

theorem witness_ExactlyTheIllFormedWordsAreRefused :
    RefusalCause .reservedOp 0x900000 ∧ RefusalCause .mustBeZero 0x16C401 ∧ RefusalCause .byteIndexRange 0x1D0000 ∧
    RefusalCause .crossesCell 0x149000 ∧ RefusalCause .reservedKind 0x360001 ∧ ∀ e, ¬ RefusalCause e 0x1C0000 := by
  refine ⟨?_, ?_, ?_, ?_, ?_, ?_⟩
  · unfold RefusalCause; decide
  · unfold RefusalCause; decide
  · unfold RefusalCause; decide
  · unfold RefusalCause; decide
  · unfold RefusalCause; decide
  · intro e; cases e <;> (unfold RefusalCause; decide)

theorem witness_TheBlockDoesNotCheckTheAgent :
    (∃ t, step (State.reset.setInbox [⟨.c, 0x400000, 0⟩]) = .next t) ∧
    ∃ f, step ((withBuffer frameS2).setInbox [⟨.c, 0x700000, 0⟩]) = .fault f :=
  ⟨⟨_, rfl⟩, ⟨_, rfl⟩⟩

theorem witness_DecodeOfEncodeIsTheOperation : (Instr.set ⟨12, 0, 8, true⟩ 0xFF).WellFormed := by decide

theorem witness_EncodeOfDecodeIsTheWord :
    decode 0x1CFFFF 0 = .error .mustBeZero ∧ decode 0x2CE2FF 0 = .ok (.set ⟨12, 7, 1, true⟩ 0xFF) ∧
    decode 0x600000 0 = .ok (.replace State.reset.buffer) ∧ opOf 0x600000 = 6 := by decide

theorem witness_EachWordSelectsAtMostOneRow :
    rowGet ∈ opTable ∧ rowGet.Selects 0x1CE200 ∧ decode 0x1CE200 0 = .ok (.get ⟨12, 7, 1, true⟩) := by decide

theorem witness_DecodeNamesTheFirstCause :
    decode 0x1DE1FF 0 = .error .mustBeZero ∧ decode 0x1D3C00 0 = .error .byteIndexRange := by decide

theorem witness_FramePackingKeepsEveryBit : (12 < 13 ∧ 7 < 8) ∧ (0 < 13 ∧ 0 < 8) := by decide

theorem witness_GetReturnsTheField :
    Descriptor.WellFormed ⟨12, 0, 8, true⟩ ∧ Descriptor.WellFormed ⟨0, 7, 1, false⟩ ∧
    ¬ Descriptor.WellFormed ⟨13, 0, 1, false⟩ ∧ ¬ Descriptor.WellFormed ⟨12, 1, 8, false⟩ := by decide

theorem witness_SetWritesOnlyTheField :
    Descriptor.WellFormed ⟨12, 0, 8, true⟩ ∧ ¬ Covers ⟨6, 6, 2, false⟩ 6 5 ∧ Covers ⟨6, 6, 2, false⟩ 6 6 ∧
    ¬ Descriptor.WellFormed ⟨4, 7, 2, false⟩ := by decide

theorem witness_GetAfterSetReturnsTheValue :
    FieldId.mode.descriptor.WellFormed ∧ exec (.set FieldId.mode.descriptor 1) State.reset = .next afterSetMode :=
  ⟨by decide, exec_setMode⟩

theorem witness_SetKeepsEveryDisjointField :
    FieldId.mode.descriptor.WellFormed ∧ FieldId.clean.descriptor.WellFormed ∧
    DisjointFields FieldId.mode.descriptor FieldId.clean.descriptor ∧
    exec (.set FieldId.mode.descriptor 1) State.reset = .next afterSetMode := by
  refine ⟨by decide, by decide, ?_, exec_setMode⟩
  rintro i j ⟨-, h, -⟩ ⟨-, -, h'⟩
  simp only [FieldId.descriptor] at h h'
  omega

theorem witness_SetOfACanonicalFieldKeepsTheOthers :
    exec (.set FieldId.mode.descriptor 1) State.reset = .next afterSetMode ∧ FieldId.mode ≠ FieldId.clean :=
  ⟨exec_setMode, by decide⟩

theorem witness_SetOfTheHeldValueChangesNoCell : FieldId.absTemp.descriptor.WellFormed := by decide

theorem witness_OutOfRangeValuesAreMaskedSilently :
    (7 : Byte).toNat % 2 ^ FieldId.mode.descriptor.bitWidth = (3 : Byte).toNat % 2 ^ FieldId.mode.descriptor.bitWidth ∧
    (0x13 : Byte).toNat % 2 ^ 4 = (3 : Byte).toNat % 2 ^ 4 := by decide

theorem witness_RevReversesTheBits : RevWidth 1 ∧ RevWidth 8 ∧ ¬ RevWidth 0 ∧ ¬ RevWidth 9 := by decide

theorem witness_RevTwiceReturnsTheValue :
    RevWidth 5 ∧ exec (.rev 5 13) State.reset = .next (State.reset.setResponse (some (okResponse 22))) := ⟨by decide, by rfl⟩

theorem witness_RevIsLinearOverXor :
    RevWidth 4 ∧ exec (.rev 4 3) State.reset = .next (State.reset.setResponse (some (okResponse 12))) ∧
    exec (.rev 4 1) State.reset = .next (State.reset.setResponse (some (okResponse 8))) := ⟨by decide, by rfl, by rfl⟩

theorem witness_NameforAnswersTheConstantOrUnknown : 5 < 6 ∧ 6 < 16 ∧ 5 < 15 ∧ 15 < 16 := by decide

theorem witness_TheEnumerationTableIsAnyAdmissibleOne : ∀ k, (evTest k).Admissible k := by
  intro k
  refine ⟨by cases k <;> rfl, ?_, by cases k <;> decide, by cases k <;> decide⟩
  intro c v h
  cases k <;> cases c <;> simp [givenValue] at h <;> subst h <;> decide

theorem witness_NameforCountsOfUnknownValues : 2 ^ Kind.mode.width ≤ (4 : Byte).toNat := by decide

theorem witness_NamedConstantReadsBack :
    (PseudoOp.setNamed .mode .cool).expand 0 = some [.set FieldId.mode.descriptor 1] ∧
    exec (.set FieldId.mode.descriptor 1) State.reset = .next afterSetMode := ⟨by decide, exec_setMode⟩

/-- The two frames differ in the checksum bits alone. -/
theorem witness_CommitStoresTheChecksum :
    committed frameS2Committed = true ∧
    (∀ i, i ≠ 12 → readCell frameS2 i = readCell frameS2Committed i) ∧
    readCell frameS2 12 &&& 0xF0 = readCell frameS2Committed 12 &&& 0xF0 := by
  refine ⟨by decide, fun i hi => ?_, by decide⟩
  by_cases h : i < 12
  · interval_cases i <;> rfl
  · simp [readCell, show ¬ i < 13 by omega]

theorem witness_VerifyReportsTheCondition :
    readCell frameS2Committed 12 &&& 0x0F = cks frameS2Committed ∧ readCell frameS2 12 &&& 0x0F ≠ cks frameS2 := by decide

theorem witness_VerifyAnswersOneAfterCommit :
    (startRun [request .c .commit, request .c .verify]).inbox = request .c .commit :: request .c .verify :: [] := rfl

theorem witness_ChecksumIgnoresTheStoredNibble :
    (∀ i, i ≠ 12 → readCell frameS2 i = readCell frameS2Committed i) ∧
    readCell frameS2 12 &&& 0xF0 = readCell frameS2Committed 12 &&& 0xF0 := witness_CommitStoresTheChecksum.2

theorem witness_BitErrorsDetected : committed frameS2Committed = true ∧ 12 < 13 ∧ 7 < 8 ∧ (0, 0) ≠ (12, 7) := by decide

theorem witness_SetMovesTheConditionByTheNibbleOfTheChange :
    FieldId.mode.descriptor.WellFormed ∧ exec (.set FieldId.mode.descriptor 1) State.reset = .next afterSetMode :=
  ⟨by decide, exec_setMode⟩

theorem witness_SetOfTheChecksumFieldCommitsExactlyTheChecksum :
    ∃ t, exec (.set FieldId.checksum.descriptor 0xF) State.reset = .next t := ⟨_, rfl⟩

theorem witness_TxreadHandsOverACommittedFrame : committed (withBuffer frameS2Committed).buffer = true := by decide

theorem witness_TxreadOfADirtyBufferFaults : committed (withBuffer frameS2).buffer = false := by decide

theorem witness_OnlySetCommitAndReplaceChangeCells :
    exec (.set FieldId.mode.descriptor 1) State.reset = .next afterSetMode ∧
    readCell afterSetMode.buffer 6 ≠ readCell State.reset.buffer 6 := ⟨exec_setMode, by decide⟩

theorem witness_AnOperationRepeatedAtOnceChangesNothing :
    exec (.set FieldId.mode.descriptor 1) State.reset = .next afterSetMode := exec_setMode

theorem witness_AnswersDependOnlyOnTheCellsRead :
    readCell State.reset.buffer 5 = readCell afterSetMode.buffer 5 ∧ State.reset.buffer ≠ afterSetMode.buffer := by decide

theorem witness_EveryStepKeepsTheAnswersSound :
    State.AnswersSound (startRun [request .c .txread]) ∧ ∃ t, step (startRun [request .c .txread]) = .next t := by
  refine ⟨⟨?_, ?_⟩, _, rfl⟩
  · intro r h; exact absurd h (by simp [startRun, State.reset, State.setInbox])
  · intro r h; exact absurd h (by simp [startRun, State.reset, State.setInbox])

theorem witness_EveryStepKeepsTheCountOfAnswers :
    let s := startRun [request .c (.rev 6 37)]
    s.answers.length + (presentedBy .c s.inbox).length = 1 ∧ ∃ t, step s = .next t :=
  ⟨by decide, _, rfl⟩

theorem witness_AnUndisturbedBatchIsTransmitted :
    (∀ e ∈ [(FieldId.mode.descriptor, (1 : Byte))], e.1.WellFormed) ∧
    (startRun [request .c (.set FieldId.mode.descriptor 1), request .c .commit, request .c .txread]).inbox =
      ([(FieldId.mode.descriptor, (1 : Byte))].map fun e => request .c (.set e.1 e.2)) ++
        request .c .commit :: request .c .txread :: [] := ⟨by decide, rfl⟩

theorem witness_AnInterposedReplaceIsTransmittedInstead :
    (startRun [request .c (.set FieldId.mode.descriptor 1), request .t (.replace frameS2), request .c .commit,
      request .c .txread]).inbox =
      request .c (.set FieldId.mode.descriptor 1) :: request .t (.replace frameS2) :: request .c .commit ::
        request .c .txread :: [] ∧ FieldId.mode.descriptor.WellFormed := ⟨rfl, by decide⟩

theorem witness_AReceivedFrameIsVerifiedAndReadAsItArrived :
    FieldId.state.descriptor.WellFormed ∧
    (startRun [request .t (.replace frameS2), request .c .verify, request .c (.get FieldId.state.descriptor)]).inbox =
      request .t (.replace frameS2) :: request .c .verify :: request .c (.get FieldId.state.descriptor) :: [] :=
  ⟨by decide, rfl⟩

end Sys2Proof.Tests
end

/-! # The Field Codec: GET and SET (40_field_codec.md R90, R91) -/

namespace Sys2Proof.Machine

/-! ### The command words of GET and SET -/

theorem checkDescriptor_of_wellFormed {d : Descriptor} (hd : d.WellFormed) (i : Instr) : checkDescriptor d i = .ok i := by
  obtain ⟨hbi, -, -, -, hsum⟩ := hd
  rw [checkDescriptor, if_neg (by omega), if_neg (by omega)]

/-- The field widths of the command word lose nothing of a well-formed descriptor. -/
theorem descriptorOf_assemble {d : Descriptor} (hd : d.WellFormed) (op : Nat) (v : Byte) :
    descriptorOf (assemble op d.byteIndex d.bitOffset (d.bitWidth - 1) d.inverted v) = d := by
  obtain ⟨hbi, hbo, hpos, hw, -⟩ := hd
  have hinv : (d.inverted.toNat == 1) = d.inverted := by cases d.inverted <;> rfl
  rw [descriptorOf, biOf_assemble, boOf_assemble, wm1Of_assemble, invOf_assemble, hinv,
    Nat.mod_eq_of_lt (by omega), Nat.mod_eq_of_lt (by omega), Nat.mod_eq_of_lt (by omega), Nat.sub_add_cancel hpos]

theorem decode_of_opOf_one {w : CommandWord} (hop : opOf w = 1) (hz : zOf w = 0) (hval : valOf w = 0) (x : FrameWord) :
    decode w x = checkDescriptor (descriptorOf w) (.get (descriptorOf w)) := by
  simp [decode, hop, hz, hval]

theorem decode_of_opOf_two {w : CommandWord} (hop : opOf w = 2) (hz : zOf w = 0) (x : FrameWord) :
    decode w x = checkDescriptor (descriptorOf w) (.set (descriptorOf w) (valOf w)) := by
  simp [decode, hop, hz]

theorem decode_encodeWord_get {d : Descriptor} (hd : d.WellFormed) (x : FrameWord) :
    decode (encodeWord (.get d)) x = .ok (.get d) := by
  rw [encodeWord, decode_of_opOf_one (opOf_assemble ..) (zOf_assemble ..) (valOf_assemble ..),
    descriptorOf_assemble hd, checkDescriptor_of_wellFormed hd]

theorem decode_encodeWord_set {d : Descriptor} (hd : d.WellFormed) (v : Byte) (x : FrameWord) :
    decode (encodeWord (.set d v)) x = .ok (.set d v) := by
  rw [encodeWord, decode_of_opOf_two (opOf_assemble ..) (zOf_assemble ..), descriptorOf_assemble hd, valOf_assemble,
    checkDescriptor_of_wellFormed hd]

/-! ### What GET and SET answer -/

theorem exec_get_of_wellFormed {d : Descriptor} (hd : d.WellFormed) (s : State) :
    exec (.get d) s = .next (s.setResponse (some (okResponse (getField s.buffer d)))) :=
  if_pos hd

theorem exec_get_of_not_wellFormed {d : Descriptor} (hd : ¬ d.WellFormed) (s : State) :
    exec (.get d) s = .next (s.setResponse (some refusedResponse)) :=
  if_neg hd

theorem exec_set_of_wellFormed {d : Descriptor} (hd : d.WellFormed) (v : Byte) (s : State) :
    exec (.set d v) s = .next ((s.setBuffer (setField s.buffer d v)).setResponse (some (okResponse 0))) :=
  if_pos hd

theorem exec_set_of_not_wellFormed {d : Descriptor} (hd : ¬ d.WellFormed) (v : Byte) (s : State) :
    exec (.set d v) s = .next (s.setResponse (some refusedResponse)) :=
  if_neg hd

/-! ### The bits of a field, by position -/

theorem fieldPosition_lt {d : Descriptor} {k : Nat} (hk : k < d.bitWidth) : fieldPosition d k < d.bitWidth := by
  unfold fieldPosition
  split <;> omega

/-- Bit reversal undoes itself (20_memory.md R44), so the position of a bit and the bit at a position are one map. -/
theorem fieldPosition_fieldPosition {d : Descriptor} {k : Nat} (hk : k < d.bitWidth) :
    fieldPosition d (fieldPosition d k) = k := by
  unfold fieldPosition
  split <;> omega

theorem getField_toNat_lt {d : Descriptor} (hd : d.WellFormed) (f : Frame) : (getField f d).toNat < 2 ^ d.bitWidth := by
  apply toNat_lt_of_bits
  intro j hj
  simp [getLsbD_getField hd, Nat.not_lt.mpr hj]

theorem getLsbD_getField_eq_cellBit {d : Descriptor} (hd : d.WellFormed) (f : Frame) {k : Nat} (hk : k < d.bitWidth) :
    (getField f d).getLsbD k = cellBit f d.byteIndex (d.bitOffset + fieldPosition d k) := by
  rw [getLsbD_getField hd, decide_eq_true hk, Bool.true_and, cellBit, fieldPosition]

theorem cellBit_of_ge (f : Frame) (i : Nat) {j : Nat} (hj : 8 ≤ j) : cellBit f i j = false :=
  BitVec.getLsbD_of_ge _ _ hj

theorem readCell_setField_ne (f : Frame) (d : Descriptor) (v : Byte) {i : Nat} (hi : i ≠ d.byteIndex) :
    readCell (setField f d v) i = readCell f i :=
  readCell_writeCell_ne f hi.symm _

/-- The cell of a field after SET: inside the field the bits of the value, outside it the bits from before. -/
theorem cellBit_setField {d : Descriptor} (hd : d.WellFormed) (f : Frame) (v : Byte) {j : Nat} (hj : j < 8) :
    cellBit (setField f d v) d.byteIndex j =
      if Covers d d.byteIndex j then v.getLsbD (fieldPosition d (j - d.bitOffset)) else cellBit f d.byteIndex j := by
  have ⟨hbi, _⟩ := hd
  rw [cellBit, setField, readCell_writeCell_self f (by omega), getLsbD_insertField hd _ v j hj, fieldPosition, cellBit]
  simp [Covers]

theorem cellBit_setField_of_not_covers {d : Descriptor} (hd : d.WellFormed) (f : Frame) (v : Byte) {j : Nat}
    (hj : ¬ Covers d d.byteIndex j) : cellBit (setField f d v) d.byteIndex j = cellBit f d.byteIndex j := by
  by_cases h8 : j < 8
  · rw [cellBit_setField hd f v h8, if_neg hj]
  · rw [cellBit_of_ge _ _ (Nat.not_lt.mp h8), cellBit_of_ge _ _ (Nat.not_lt.mp h8)]

theorem cellBit_setField_fieldPosition {d : Descriptor} (hd : d.WellFormed) (f : Frame) (v : Byte) {k : Nat}
    (hk : k < d.bitWidth) :
    cellBit (setField f d v) d.byteIndex (d.bitOffset + fieldPosition d k) = v.getLsbD k := by
  have ⟨_, _, _, _, hsum⟩ := hd
  have hpos : fieldPosition d k < d.bitWidth := fieldPosition_lt hk
  have hcov : Covers d d.byteIndex (d.bitOffset + fieldPosition d k) := ⟨rfl, by omega, by omega⟩
  rw [cellBit_setField hd f v (by omega), if_pos hcov, Nat.add_sub_cancel_left, fieldPosition_fieldPosition hk]

/-! ### The obligations -/

/-- Settles O15: GET answers `getField`, whose bits are the field's bits by position. -/
theorem getReturnsTheField : Obligations.GetReturnsTheField := by
  intro d s x
  refine ⟨fun hd => ⟨decode_encodeWord_get hd x, getField s.buffer d, exec_get_of_wellFormed hd s, ?_, ?_⟩,
    fun hd => exec_get_of_not_wellFormed hd s⟩
  · exact getField_toNat_lt hd s.buffer
  · exact fun k hk => getLsbD_getField_eq_cellBit hd s.buffer hk

/-- Settles O16: SET leaves `setField`, cell by cell and bit by bit. -/
theorem setWritesOnlyTheField : Obligations.SetWritesOnlyTheField := by
  intro d v s x
  refine ⟨fun hd => ⟨decode_encodeWord_set hd v x, setField s.buffer d v, exec_set_of_wellFormed hd v s, ?_, ?_, ?_⟩,
    fun hd => exec_set_of_not_wellFormed hd v s⟩
  · exact fun i hi => readCell_setField_ne s.buffer d v hi
  · exact fun j hj => cellBit_setField_of_not_covers hd s.buffer v hj
  · exact fun k hk => cellBit_setField_fieldPosition hd s.buffer v hk

end Sys2Proof.Machine

/-! # The enumeration lookup: NAMEFOR (42_enum_lookup.md R110, R112) -/

namespace Sys2Proof

/-! ### The command words of NAMEFOR -/

theorem kindOfCode_code (k : Kind) : kindOfCode k.code = some k := by cases k <;> rfl

theorem kindOfCode_eq_none {code : Nat} (h : 5 < code) : kindOfCode code = none := by
  unfold kindOfCode
  split
  case h_7 => rfl
  all_goals omega

theorem code_lt (k : Kind) : k.code < 16 := by cases k <;> decide

/-- A word with the OP of NAMEFOR and its must-be-zero fields zero is decoded by its KIND. -/
theorem decode_of_opOf_three {w : CommandWord} (hop : opOf w = 3) (hbo : boOf w = 0) (hwm1 : wm1Of w = 0)
    (hinv : invOf w = 0) (hz : zOf w = 0) (x : FrameWord) :
    decode w x = (kindOfCode (biOf w)).elim (.error .reservedKind) fun k => .ok (.namefor k (valOf w)) := by
  cases hkind : kindOfCode (biOf w) <;> simp [decode, hop, hbo, hwm1, hinv, hz, hkind]

theorem decode_assemble_three {code : Nat} (h : code < 16) (raw : Byte) (x : FrameWord) :
    decode (assemble 3 code 0 0 false raw) x =
      (kindOfCode code).elim (.error .reservedKind) fun k => .ok (.namefor k raw) := by
  rw [decode_of_opOf_three (opOf_assemble ..) (boOf_assemble ..) (wm1Of_assemble ..) (invOf_assemble ..)
    (zOf_assemble ..), biOf_assemble, valOf_assemble, Nat.mod_eq_of_lt h]

theorem decode_namefor (k : Kind) (raw : Byte) (x : FrameWord) :
    decode (assemble 3 k.code 0 0 false raw) x = .ok (.namefor k raw) := by
  rw [decode_assemble_three (code_lt k), kindOfCode_code, Option.elim_some]

theorem decode_reservedKind {code : Nat} (h5 : 5 < code) (h16 : code < 16) (raw : Byte) (x : FrameWord) :
    decode (assemble 3 code 0 0 false raw) x = .error .reservedKind := by
  rw [decode_assemble_three h16, kindOfCode_eq_none h5, Option.elim_none]

/-! ### The values of the constants -/

/-- In a list without a repeated key the lookup finds every entry, not only the first of its key. -/
theorem lookup_eq_some_iff_mem {α β : Type} [BEq α] [LawfulBEq α] {l : List (α × β)} (hl : (l.map Prod.fst).Nodup)
    {a : α} {b : β} : l.lookup a = some b ↔ (a, b) ∈ l := by
  rw [List.lookup_eq_some_iff]
  constructor
  · rintro ⟨l₁, l₂, rfl, -⟩
    simp
  · intro hab
    obtain ⟨l₁, l₂, rfl⟩ := List.append_of_mem hab
    refine ⟨l₁, l₂, rfl, fun p hp => ?_⟩
    rw [List.map_append, List.nodup_append] at hl
    obtain ⟨-, -, hdisjoint⟩ := hl
    have hne : p.1 ≠ a := hdisjoint p.1 (List.mem_map_of_mem hp) a (by simp)
    simpa using hne.symm

theorem constants_nodup (k : Kind) : k.constants.Nodup := by cases k <;> decide

theorem enumRow_fst (k : Kind) : (enumRow k).map Prod.fst = k.constants := assignValues_fst _ _

theorem enumValue_eq_some_iff {k : Kind} {c : EnumSymbol} {v : Byte} : enumValue k c = some v ↔ (c, v) ∈ enumRow k := by
  refine lookup_eq_some_iff_mem ?_
  rw [enumRow_fst]
  exact constants_nodup k

/-- The symbol of a raw value is the constant that has it, or "unknown" when none has it (42_enum_lookup.md R110). -/
theorem symbolFor_enumRow_cases (k : Kind) (raw : Byte) :
    enumValue k (symbolFor (enumRow k) raw) = some raw ∨
      (symbolFor (enumRow k) raw = .unknown ∧ ∀ c, enumValue k c ≠ some raw) := by
  simpa only [ne_eq, enumValue_eq_some_iff] using symbolFor_cases (enumRow k) raw

/-! ### The given values -/

theorem givenValue_eq_some_iff {k : Kind} {c : EnumSymbol} {v : Byte} :
    givenValue k c = some v ↔
      (k = .mode ∧ c = .cool ∧ v = 1) ∨ (k = .state ∧ c = .on ∧ v = 4) ∨ (k = .fanStrength ∧ c = .auto ∧ v = 2) := by
  unfold givenValue
  split <;> simp_all [eq_comm]

theorem mem_constants_of_given {k : Kind} {c : EnumSymbol} {v : Byte} (h : givenValue k c = some v) :
    c ∈ k.constants := by
  rcases givenValue_eq_some_iff.mp h with ⟨rfl, rfl, -⟩ | ⟨rfl, rfl, -⟩ | ⟨rfl, rfl, -⟩ <;> decide

/-- The spec gives at most one constant of a kind its value. -/
theorem given_constant_unique {k : Kind} {c d : EnumSymbol} {v w : Byte} (hc : givenValue k c = some v)
    (hd : givenValue k d = some w) : c = d := by
  rw [givenValue_eq_some_iff] at hc hd
  rcases hc with ⟨rfl, rfl, -⟩ | ⟨rfl, rfl, -⟩ | ⟨rfl, rfl, -⟩ <;> simp_all

theorem enumValue_of_given {k : Kind} {c : EnumSymbol} {v : Byte} (h : givenValue k c = some v) :
    enumValue k c = some v :=
  enumValue_eq_some_iff.mpr (assignValues_given h (mem_constants_of_given h) _)

/-- While there are free values enough, each value in the table is the one given or one of the free ones. -/
theorem given_or_mem_free_of_mem_assignValues {given : EnumSymbol → Option Byte} {choice : EnumSymbol → Nat}
    {c : EnumSymbol} {v : Byte} {cs : List EnumSymbol} {free : List Byte}
    (hlen : cs.countP (fun d => (given d).isNone) ≤ free.length) (h : (c, v) ∈ assignValues given choice cs free) :
    given c = some v ∨ v ∈ free := by
  induction cs generalizing free with
  | nil => simp [assignValues] at h
  | cons d cs ih =>
    unfold assignValues at h
    split at h
    next w hw =>
      rcases List.mem_cons.mp h with heq | htail
      · cases heq
        exact .inl hw
      · exact ih (by simpa [List.countP_cons, hw] using hlen) htail
    next hnone =>
      have hcount : cs.countP (fun d => (given d).isNone) + 1 ≤ free.length := by
        simpa [List.countP_cons, hnone] using hlen
      have hn : choice d % free.length < free.length := Nat.mod_lt _ (by omega)
      rcases List.mem_cons.mp h with heq | htail
      · cases heq
        right
        rw [List.getD_eq_getElem _ _ hn]
        exact List.getElem_mem hn
      · have hrest := ih (by rw [List.length_eraseIdx_of_lt hn]; omega) htail
        exact hrest.imp_right List.mem_of_mem_eraseIdx

/-- Each kind's field has a free value for every constant that needs one. -/
theorem freeValues_enough (k : Kind) :
    k.constants.countP (fun c => (givenValue k c).isNone) ≤ (freeValues k).length := by
  cases k <;> decide

theorem not_mem_freeValues_of_given {k : Kind} {c : EnumSymbol} {v : Byte} (h : givenValue k c = some v) :
    v ∉ freeValues k := by
  have hgiven : isGiven k v = true := List.any_eq_true.mpr ⟨c, mem_constants_of_given h, by simp [h]⟩
  simp [freeValues, hgiven]

/-- A given value is the value of no other constant of its kind (42_enum_lookup.md R113 (b)). -/
theorem eq_of_enumValue_eq_given {k : Kind} {c d : EnumSymbol} {v : Byte} (hc : givenValue k c = some v)
    (hd : enumValue k d = some v) : d = c := by
  rcases given_or_mem_free_of_mem_assignValues (freeValues_enough k) (enumValue_eq_some_iff.mp hd) with hgiven | hfree
  · exact given_constant_unique hgiven hc
  · exact absurd hfree (not_mem_freeValues_of_given hc)

theorem symbolFor_of_given {k : Kind} {c : EnumSymbol} {v : Byte} (h : givenValue k c = some v) :
    symbolFor (enumRow k) v = c := by
  rcases symbolFor_enumRow_cases k v with hv | ⟨-, hnone⟩
  · exact eq_of_enumValue_eq_given h hv
  · exact absurd (enumValue_of_given h) (hnone c)

end Sys2Proof

namespace Sys2Proof.Machine

/-! ### What NAMEFOR answers -/

theorem exec_namefor (k : Kind) (raw : Byte) (s : State) :
    exec (.namefor k raw) s = .next (s.setResponse (some (okResponse (symbolFor (enumRow k) raw).id))) := rfl

theorem exec_namefor_of_given {k : Kind} {c : EnumSymbol} {v : Byte} (h : givenValue k c = some v) (s : State) :
    exec (.namefor k v) s = .next (s.setResponse (some (okResponse c.id))) := by
  rw [exec_namefor, symbolFor_of_given h]

/-! ### The obligations -/

/-- Settles O26: the symbol answered is the constant with the raw value, or "unknown", whose id is 0. -/
theorem nameforAnswersTheConstantOrUnknown : Obligations.NameforAnswersTheConstantOrUnknown := by
  refine ⟨fun k raw s x => ⟨decode_namefor k raw x, ?_⟩, fun code raw x h5 h16 => decode_reservedKind h5 h16 raw x⟩
  rcases symbolFor_enumRow_cases k raw with hv | ⟨hunknown, hnone⟩
  · exact .inl ⟨_, hv, exec_namefor k raw s⟩
  · refine .inr ⟨hnone, ?_⟩
    rw [exec_namefor, hunknown]
    rfl

/-- Settles O27: the table holds each given value, and no other constant of the kind has it. -/
theorem nameforKnowsTheGivenConstants : Obligations.NameforKnowsTheGivenConstants := by
  have hcool : givenValue .mode .cool = some 1 := rfl
  have hon : givenValue .state .on = some 4 := rfl
  have hauto : givenValue .fanStrength .auto = some 2 := rfl
  exact ⟨enumValue_of_given hcool, enumValue_of_given hon, enumValue_of_given hauto, fun s =>
    ⟨exec_namefor_of_given hcool s, exec_namefor_of_given hon s, exec_namefor_of_given hauto s⟩⟩

end Sys2Proof.Machine

/-! # The checksum: COMMIT and VERIFY (43_checksum.md R122 to R125) -/

namespace Sys2Proof.Machine

/-! ### The command words of COMMIT and VERIFY, and what they answer -/

theorem decode_commit_word (x : FrameWord) : decode 0x400000 x = .ok .commit := rfl

theorem decode_verify_word (x : FrameWord) : decode 0x500000 x = .ok .verify := rfl

theorem exec_commit (s : State) :
    exec .commit s = .next ((s.setBuffer (commitFrame s.buffer)).setResponse (some (okResponse 0))) := rfl

theorem exec_verify (s : State) :
    exec .verify s = .next (s.setResponse (some (okResponse (if committed s.buffer then 1 else 0)))) := rfl

/-! ### The two nibbles of a byte -/

theorem and_highMask_or_and_lowMask (b : Byte) : (b &&& 0xF0) ||| (b &&& 0x0F) = b := by
  rw [← BitVec.and_or_distrib_left]
  exact BitVec.and_allOnes

/-- Joining a high nibble to a low one keeps the high one. -/
theorem highNibble_or_and_highMask (b : Byte) {v : Byte} (hv : v &&& 0x0F = v) :
    ((b &&& 0xF0) ||| v) &&& 0xF0 = b &&& 0xF0 := by
  rw [← hv, BitVec.and_or_distrib_right, BitVec.and_assoc, BitVec.and_assoc]
  simp

/-- Joining a high nibble to a low one keeps the low one. -/
theorem highNibble_or_and_lowMask (b : Byte) {v : Byte} (hv : v &&& 0x0F = v) :
    ((b &&& 0xF0) ||| v) &&& 0x0F = v := by
  rw [BitVec.and_or_distrib_right, BitVec.and_assoc, hv]
  simp

theorem modWidth_four (v : Byte) : modWidth 4 v = v &&& 0x0F := by
  apply BitVec.eq_of_toNat_eq
  rw [modWidth_toNat, BitVec.toNat_and]
  exact (Nat.and_two_pow_sub_one_eq_mod v.toNat 4).symm

/-- A checksum is a nibble. -/
theorem cks_and_lowMask (f : Frame) : cks f &&& 0x0F = cks f := by
  rw [cks, nib, BitVec.and_assoc, BitVec.and_self]

/-! ### The checksum field of a frame -/

/-- SET of the checksum field keeps the high nibble of cell 12 and puts the value's low nibble under it. -/
theorem setField_checksum (f : Frame) (v : Byte) :
    setField f FieldId.checksum.descriptor v = writeCell f 12 ((readCell f 12 &&& 0xF0) ||| (v &&& 0x0F)) := by
  have hstored : storedForm FieldId.checksum.descriptor v = v &&& 0x0F := modWidth_four v
  have hmask : ~~~fieldMask FieldId.checksum.descriptor.bitOffset FieldId.checksum.descriptor.bitWidth = 0xF0 := by decide
  rw [setField, insertField, hstored, hmask]
  exact congrArg (fun w => writeCell f 12 ((readCell f 12 &&& 0xF0) ||| w)) (BitVec.shiftLeft_zero _)

theorem setField_checksum_zero (f : Frame) : setField f FieldId.checksum.descriptor 0 = clearChecksum f := by
  simp [setField_checksum, clearChecksum]

/-- Clearing the checksum leaves what the other 100 bits determine (43_checksum.md R122). -/
theorem clearChecksum_congr {f g : Frame} (hcells : ∀ i, i ≠ 12 → readCell f i = readCell g i)
    (hhigh : readCell f 12 &&& 0xF0 = readCell g 12 &&& 0xF0) : clearChecksum f = clearChecksum g := by
  apply frame_ext
  intro i _
  simp only [clearChecksum, readCell_writeCell, hhigh]
  split
  · rfl
  · exact hcells i (by omega)

theorem cks_congr {f g : Frame} (hcells : ∀ i, i ≠ 12 → readCell f i = readCell g i)
    (hhigh : readCell f 12 &&& 0xF0 = readCell g 12 &&& 0xF0) : cks f = cks g := by
  rw [cks, cks, clearChecksum_congr hcells hhigh]

/-! ### The frame COMMIT leaves -/

/-- COMMIT is SET of the checksum field, to the checksum, in the cleared frame. -/
theorem commitFrame_eq_setField (f : Frame) :
    commitFrame f = setField (clearChecksum f) FieldId.checksum.descriptor (cks f) := by
  rw [commitFrame, setField_checksum_zero, cks]

/-- The net effect of COMMIT's two writes (43_checksum.md R124). -/
theorem commitFrame_eq_writeCell (f : Frame) :
    commitFrame f = writeCell f 12 ((readCell f 12 &&& 0xF0) ||| cks f) := by
  have hcell : readCell (clearChecksum f) 12 = readCell f 12 &&& 0xF0 := readCell_writeCell_self f (by decide) _
  rw [commitFrame_eq_setField, setField_checksum, hcell, BitVec.and_assoc, BitVec.and_self, cks_and_lowMask,
    clearChecksum, writeCell_writeCell]

theorem readCell_commitFrame_checksum (f : Frame) :
    readCell (commitFrame f) 12 = (readCell f 12 &&& 0xF0) ||| cks f := by
  rw [commitFrame_eq_writeCell, readCell_writeCell_self f (by decide)]

theorem readCell_commitFrame_ne (f : Frame) {i : Nat} (hi : i ≠ 12) : readCell (commitFrame f) i = readCell f i := by
  rw [commitFrame_eq_writeCell, readCell_writeCell_ne f hi.symm]

/-- COMMIT does not change the checksum: it writes no bit the checksum is computed from. -/
theorem cks_commitFrame (f : Frame) : cks (commitFrame f) = cks f := by
  refine cks_congr (fun i hi => readCell_commitFrame_ne f hi) ?_
  rw [readCell_commitFrame_checksum, highNibble_or_and_highMask _ (cks_and_lowMask f)]

theorem committed_commitFrame (f : Frame) : committed (commitFrame f) = true := by
  rw [committed_iff, cks_commitFrame, readCell_commitFrame_checksum, highNibble_or_and_lowMask _ (cks_and_lowMask f)]

theorem commitFrame_of_committed {f : Frame} (h : committed f = true) : commitFrame f = f := by
  rw [commitFrame_eq_writeCell, ← (committed_iff f).mp h, and_highMask_or_and_lowMask, writeCell_readCell]

/-- The stored checksum bits have no part in what COMMIT leaves. -/
theorem commitFrame_congr {f g : Frame} (hcells : ∀ i, i ≠ 12 → readCell f i = readCell g i)
    (hhigh : readCell f 12 &&& 0xF0 = readCell g 12 &&& 0xF0) : commitFrame f = commitFrame g := by
  rw [commitFrame_eq_setField, commitFrame_eq_setField, clearChecksum_congr hcells hhigh, cks_congr hcells hhigh]

/-! ### The obligations -/

/-- Settles O31: COMMIT leaves `commitFrame`, which differs from the buffer in the low nibble of cell 12 alone. -/
theorem commitStoresTheChecksum : Obligations.CommitStoresTheChecksum := by
  intro s x
  refine ⟨decode_commit_word x, commitFrame s.buffer, exec_commit s, readCell_commitFrame_checksum s.buffer, ?_,
    committed_commitFrame s.buffer, commitFrame_of_committed, ?_⟩
  · exact fun i hi => readCell_commitFrame_ne s.buffer hi
  · intro t hcells hhigh
    rw [← commitFrame_congr hcells hhigh]
    exact exec_commit t

/-- Settles O32: the answer of VERIFY is 1 or 0 by the committed condition, which compares the two checksums. -/
theorem verifyReportsTheCondition : Obligations.VerifyReportsTheCondition := by
  intro s x
  refine ⟨decode_verify_word x, fun heq => ?_, fun hne => ?_⟩
  · have hcommitted : committed s.buffer = true := (committed_iff _).mpr heq
    rw [exec_verify, if_pos hcommitted]
    rfl
  · have hdirty : ¬ committed s.buffer = true := fun h => hne ((committed_iff _).mp h)
    rw [exec_verify, if_neg hdirty]
    rfl

end Sys2Proof.Machine

/-! # The buffer lifecycle: REPLACE (44_buffer_lifecycle.md R135) -/

namespace Sys2Proof

/-- Packing puts cell `i` where unpacking looks for it (30_encoding.md R73). -/
theorem frameSlice_packFrame (f : Frame) {i : Nat} (hi : i < 13) : frameSlice (packFrame f) i = f[i] := by
  apply BitVec.eq_of_toNat_eq
  rw [frameSlice_toNat, packFrame_toNat]
  interval_cases i <;> omega

@[simp] theorem unpackFrame_packFrame (f : Frame) : unpackFrame (packFrame f) = f := by
  apply Vector.ext
  intro i hi
  rw [unpackFrame_getElem _ i hi, frameSlice_packFrame f hi]

/-- The word of REPLACE takes its frame from the operand, and checks nothing of it. -/
theorem decode_replace_word (x : FrameWord) : decode 0x600000 x = .ok (.replace (unpackFrame x)) := rfl

end Sys2Proof

namespace Sys2Proof.Machine

theorem exec_replace (f : Frame) (s : State) :
    exec (.replace f) s = .next ((s.setBuffer f).setResponse (some (okResponse 0))) := rfl

/-- Settles O39: REPLACE makes the frame the buffer, so its cells and its condition are the frame's. -/
theorem replaceLoadsTheFrame : Obligations.ReplaceLoadsTheFrame := by
  intro f s
  have hdecode : decode 0x600000 (packFrame f) = .ok (.replace f) := by
    rw [decode_replace_word, unpackFrame_packFrame]
  exact ⟨hdecode, _, exec_replace f s, fun _ => rfl, rfl, rfl, rfl, committed_iff f⟩

end Sys2Proof.Machine

/-! # The command encoding (30_encoding.md R69 to R77, 60_exceptions.md R149) -/

namespace Sys2Proof

/-! ### When a word selects a row of the opcode table -/

theorem wordField_lt (w : CommandWord) (lo n : Nat) : wordField w lo n < 2 ^ n := BitVec.isLt _

theorem wordField_and (w m : CommandWord) (lo n : Nat) :
    wordField (w &&& m) lo n = wordField w lo n &&& wordField m lo n := by
  rw [wordField, BitVec.extractLsb'_and, BitVec.toNat_and, wordField, wordField]

theorem valOf_toNat (w : CommandWord) : (valOf w).toNat = wordField w 0 8 := rfl

/-- Two command words with the same seven fields are the same (30_encoding.md R69). -/
theorem word_ext {w v : CommandWord} (hop : opOf w = opOf v) (hbi : biOf w = biOf v) (hbo : boOf w = boOf v)
    (hwm1 : wm1Of w = wm1Of v) (hinv : invOf w = invOf v) (hz : zOf w = zOf v) (hval : valOf w = valOf v) : w = v := by
  apply BitVec.eq_of_toNat_eq
  have := w.isLt
  have := v.isLt
  rw [← BitVec.toNat_inj] at hval
  simp only [opOf, biOf, boOf, wm1Of, invOf, zOf, valOf_toNat, wordField_eq] at *
  omega

/-- A row compares each field of the word by itself. -/
theorem selects_iff_fields {r : OpRow} {w : CommandWord} :
    r.Selects w ↔ opOf w &&& opOf r.mask = opOf r.pattern ∧ biOf w &&& biOf r.mask = biOf r.pattern ∧
      boOf w &&& boOf r.mask = boOf r.pattern ∧ wm1Of w &&& wm1Of r.mask = wm1Of r.pattern ∧
      invOf w &&& invOf r.mask = invOf r.pattern ∧ zOf w &&& zOf r.mask = zOf r.pattern ∧
      valOf w &&& valOf r.mask = valOf r.pattern := by
  have hval : valOf (w &&& r.mask) = valOf w &&& valOf r.mask := BitVec.extractLsb'_and
  simp only [opOf, biOf, boOf, wm1Of, invOf, zOf, ← wordField_and, ← hval]
  constructor
  · intro h
    simp only [h, and_self]
  · rintro ⟨hop, hbi, hbo, hwm1, hinv, hz, hval⟩
    exact word_ext hop hbi hbo hwm1 hinv hz hval

/-- A mask of all ones leaves a field as it is. -/
theorem wordField_and_full {lo n m : Nat} (hm : m = 2 ^ n - 1) (w : CommandWord) :
    wordField w lo n &&& m = wordField w lo n := by
  rw [hm, Nat.and_two_pow_sub_one_eq_mod, Nat.mod_eq_of_lt (wordField_lt w lo n)]

@[simp] theorem opOf_and_full (w : CommandWord) : opOf w &&& 0xF = opOf w := wordField_and_full rfl w
@[simp] theorem biOf_and_full (w : CommandWord) : biOf w &&& 0xF = biOf w := wordField_and_full rfl w
@[simp] theorem boOf_and_full (w : CommandWord) : boOf w &&& 7 = boOf w := wordField_and_full rfl w
@[simp] theorem wm1Of_and_full (w : CommandWord) : wm1Of w &&& 7 = wm1Of w := wordField_and_full rfl w
@[simp] theorem valOf_and_full (w : CommandWord) : valOf w &&& 0xFF#8 = valOf w := BitVec.and_allOnes
@[simp] theorem invOf_mod_two (w : CommandWord) : invOf w % 2 = invOf w := Nat.mod_eq_of_lt (wordField_lt w 9 1)
@[simp] theorem zOf_mod_two (w : CommandWord) : zOf w % 2 = zOf w := Nat.mod_eq_of_lt (wordField_lt w 8 1)

theorem selects_rowGet_iff {w : CommandWord} : rowGet.Selects w ↔ opOf w = 1 ∧ zOf w = 0 ∧ valOf w = 0 := by
  refine selects_iff_fields.trans ?_
  change opOf w &&& 0xF = 1 ∧ biOf w &&& 0 = 0 ∧ boOf w &&& 0 = 0 ∧ wm1Of w &&& 0 = 0 ∧ invOf w &&& 0 = 0 ∧
    zOf w &&& 1 = 0 ∧ valOf w &&& 0xFF = 0 ↔ _
  simp

theorem selects_rowSet_iff {w : CommandWord} : rowSet.Selects w ↔ opOf w = 2 ∧ zOf w = 0 := by
  refine selects_iff_fields.trans ?_
  change opOf w &&& 0xF = 2 ∧ biOf w &&& 0 = 0 ∧ boOf w &&& 0 = 0 ∧ wm1Of w &&& 0 = 0 ∧ invOf w &&& 0 = 0 ∧
    zOf w &&& 1 = 0 ∧ valOf w &&& 0 = 0 ↔ _
  simp

theorem selects_rowNamefor_iff {w : CommandWord} :
    rowNamefor.Selects w ↔ opOf w = 3 ∧ boOf w = 0 ∧ wm1Of w = 0 ∧ invOf w = 0 ∧ zOf w = 0 := by
  refine selects_iff_fields.trans ?_
  change opOf w &&& 0xF = 3 ∧ biOf w &&& 0 = 0 ∧ boOf w &&& 7 = 0 ∧ wm1Of w &&& 7 = 0 ∧ invOf w &&& 1 = 0 ∧
    zOf w &&& 1 = 0 ∧ valOf w &&& 0 = 0 ↔ _
  simp

theorem selects_rowRev_iff {w : CommandWord} :
    rowRev.Selects w ↔ opOf w = 8 ∧ biOf w = 0 ∧ boOf w = 0 ∧ invOf w = 0 ∧ zOf w = 0 := by
  refine selects_iff_fields.trans ?_
  change opOf w &&& 0xF = 8 ∧ biOf w &&& 0xF = 0 ∧ boOf w &&& 7 = 0 ∧ wm1Of w &&& 0 = 0 ∧ invOf w &&& 1 = 0 ∧
    zOf w &&& 1 = 0 ∧ valOf w &&& 0 = 0 ↔ _
  simp

/-- A row whose mask is all ones is selected by its pattern alone. -/
theorem selects_iff_eq_pattern {r : OpRow} (hm : r.mask = 0xFFFFFF) {w : CommandWord} :
    r.Selects w ↔ w = r.pattern := by
  have hand : w &&& 0xFFFFFF = w := BitVec.and_allOnes
  rw [OpRow.Selects, hm, hand]

theorem selects_iff_of_full_mask {r : OpRow} (hm : r.mask = 0xFFFFFF) {w : CommandWord} :
    r.Selects w ↔ opOf w = opOf r.pattern ∧ wordField w 0 20 = wordField r.pattern 0 20 := by
  rw [selects_iff_eq_pattern hm, ← BitVec.toNat_inj]
  have := w.isLt
  have := r.pattern.isLt
  simp only [opOf, wordField_eq]
  omega

theorem selects_rowCommit_iff {w : CommandWord} : rowCommit.Selects w ↔ opOf w = 4 ∧ wordField w 0 20 = 0 :=
  selects_iff_of_full_mask rfl

theorem selects_rowVerify_iff {w : CommandWord} : rowVerify.Selects w ↔ opOf w = 5 ∧ wordField w 0 20 = 0 :=
  selects_iff_of_full_mask rfl

theorem selects_rowReplace_iff {w : CommandWord} : rowReplace.Selects w ↔ opOf w = 6 ∧ wordField w 0 20 = 0 :=
  selects_iff_of_full_mask rfl

theorem selects_rowTxread_iff {w : CommandWord} : rowTxread.Selects w ↔ opOf w = 7 ∧ wordField w 0 20 = 0 :=
  selects_iff_of_full_mask rfl

theorem mem_opTable_iff {r : OpRow} :
    r ∈ opTable ↔ r = rowGet ∨ r = rowSet ∨ r = rowNamefor ∨ r = rowCommit ∨ r = rowVerify ∨ r = rowReplace ∨
      r = rowTxread ∨ r = rowRev := by
  simp [opTable]

theorem opOf_of_selects {r : OpRow} (hr : r ∈ opTable) {w : CommandWord} (h : r.Selects w) : opOf w = r.op := by
  obtain ⟨hop, -⟩ := selects_iff_fields.mp h
  have hrow : ∀ q ∈ opTable, opOf q.mask = 0xF ∧ opOf q.pattern = q.op := by decide
  obtain ⟨hmask, hpattern⟩ := hrow r hr
  rwa [hmask, hpattern, opOf_and_full] at hop

/-- Each row has its own OP (30_encoding.md R70). -/
theorem row_eq_of_op_eq {r q : OpRow} (hr : r ∈ opTable) (hq : q ∈ opTable) (h : r.op = q.op) : r = q := by
  have hrows : ∀ r ∈ opTable, ∀ q ∈ opTable, r.op = q.op → r = q := by decide
  exact hrows r hr q hq h

theorem row_unique_of_selects {r q : OpRow} {w : CommandWord} (hr : r ∈ opTable) (hq : q ∈ opTable)
    (hrw : r.Selects w) (hqw : q.Selects w) : r = q :=
  row_eq_of_op_eq hr hq ((opOf_of_selects hr hrw).symm.trans (opOf_of_selects hq hqw))

theorem row_mem_opTable (i : Instr) : i.row ∈ opTable := by
  rw [mem_opTable_iff]
  cases i <;> simp [Instr.row]

/-- A word has a reserved OP, or its OP has a row, which it selects or does not. -/
theorem word_cases (w : CommandWord) :
    (opOf w = 0 ∨ 9 ≤ opOf w) ∨ (∃ r ∈ opTable, r.op = opOf w ∧ ¬ r.Selects w) ∨ ∃ r ∈ opTable, r.Selects w := by
  by_cases hop : opOf w = 0 ∨ 9 ≤ opOf w
  · exact .inl hop
  · have hrow : ∀ n < 9, n = 0 ∨ ∃ r ∈ opTable, r.op = n := by decide
    obtain h0 | ⟨r, hr, hro⟩ := hrow (opOf w) (by omega)
    · omega
    · by_cases hs : r.Selects w
      · exact .inr (.inr ⟨r, hr, hs⟩)
      · exact .inr (.inl ⟨r, hr, hro, hs⟩)

/-! ### The decoder, row by row -/

theorem decode_of_reserved {w : CommandWord} (h : opOf w = 0 ∨ 9 ≤ opOf w) (x : FrameWord) :
    decode w x = .error .reservedOp := by
  unfold decode
  split
  case h_9 => rfl
  all_goals omega

/-- A word with the OP of a row that does not select the row breaks one of the decoder's must-be-zero tests. -/
theorem decode_of_not_selects {r : OpRow} {w : CommandWord} (hr : r ∈ opTable) (hop : r.op = opOf w)
    (h : ¬ r.Selects w) (x : FrameWord) : decode w x = .error .mustBeZero := by
  rw [mem_opTable_iff] at hr
  rcases hr with rfl | rfl | rfl | rfl | rfl | rfl | rfl | rfl
  all_goals
    simp only [selects_rowGet_iff, selects_rowSet_iff, selects_rowNamefor_iff, selects_rowCommit_iff,
      selects_rowVerify_iff, selects_rowReplace_iff, selects_rowTxread_iff, selects_rowRev_iff, ← hop] at h
    simp only [decode, ← hop]
    exact if_pos (by tauto)

theorem decode_rowGet {w : CommandWord} (h : rowGet.Selects w) (x : FrameWord) :
    decode w x = checkDescriptor (descriptorOf w) (.get (descriptorOf w)) := by
  obtain ⟨hop, hz, hval⟩ := selects_rowGet_iff.mp h
  exact Machine.decode_of_opOf_one hop hz hval x

theorem decode_rowSet {w : CommandWord} (h : rowSet.Selects w) (x : FrameWord) :
    decode w x = checkDescriptor (descriptorOf w) (.set (descriptorOf w) (valOf w)) := by
  obtain ⟨hop, hz⟩ := selects_rowSet_iff.mp h
  exact Machine.decode_of_opOf_two hop hz x

theorem decode_rowNamefor {w : CommandWord} (h : rowNamefor.Selects w) (x : FrameWord) :
    decode w x = (kindOfCode (biOf w)).elim (.error .reservedKind) fun k => .ok (.namefor k (valOf w)) := by
  obtain ⟨hop, hbo, hwm1, hinv, hz⟩ := selects_rowNamefor_iff.mp h
  exact decode_of_opOf_three hop hbo hwm1 hinv hz x

theorem decode_rowCommit {w : CommandWord} (h : rowCommit.Selects w) (x : FrameWord) : decode w x = .ok .commit := by
  obtain ⟨hop, hlow⟩ := selects_rowCommit_iff.mp h
  simp [decode, hop, hlow]

theorem decode_rowVerify {w : CommandWord} (h : rowVerify.Selects w) (x : FrameWord) : decode w x = .ok .verify := by
  obtain ⟨hop, hlow⟩ := selects_rowVerify_iff.mp h
  simp [decode, hop, hlow]

theorem decode_rowReplace {w : CommandWord} (h : rowReplace.Selects w) (x : FrameWord) :
    decode w x = .ok (.replace (unpackFrame x)) := by
  obtain ⟨hop, hlow⟩ := selects_rowReplace_iff.mp h
  simp [decode, hop, hlow]

theorem decode_rowTxread {w : CommandWord} (h : rowTxread.Selects w) (x : FrameWord) : decode w x = .ok .txread := by
  obtain ⟨hop, hlow⟩ := selects_rowTxread_iff.mp h
  simp [decode, hop, hlow]

theorem decode_rowRev {w : CommandWord} (h : rowRev.Selects w) (x : FrameWord) :
    decode w x = .ok (.rev (widthOf w) (valOf w)) := by
  obtain ⟨hop, hbi, hbo, hinv, hz⟩ := selects_rowRev_iff.mp h
  simp [decode, hop, hbi, hbo, hinv, hz]

/-! ### Packed frames, bit by bit (30_encoding.md R73) -/

theorem getLsbD_frameSlice (x : FrameWord) (i : Nat) {j : Nat} (hj : j < 8) :
    (frameSlice x i).getLsbD j = x.getLsbD (8 * i + j) := by
  simp [frameSlice, hj]

theorem getLsbD_packFrame (f : Frame) {i j : Nat} (hi : i < 13) (hj : j < 8) :
    (packFrame f).getLsbD (8 * i + j) = Machine.cellBit f i j := by
  rw [← getLsbD_frameSlice _ _ hj, frameSlice_packFrame f hi, Machine.cellBit, Machine.readCell_eq_getElem f hi]

@[simp] theorem packFrame_unpackFrame (x : FrameWord) : packFrame (unpackFrame x) = x := by
  apply BitVec.eq_of_getLsbD_eq
  intro k hk
  have hi : k / 8 < 13 := by omega
  have hj : k % 8 < 8 := by omega
  rw [← Nat.div_add_mod k 8, getLsbD_packFrame _ hi hj, Machine.cellBit, Machine.readCell_eq_getElem _ hi,
    unpackFrame_getElem x _ hi, getLsbD_frameSlice x _ hj]

/-! ### The check of a descriptor -/

theorem checkDescriptor_of_byteIndexRange {d : Descriptor} (h : 12 < d.byteIndex) (i : Instr) :
    checkDescriptor d i = .error .byteIndexRange :=
  if_pos h

theorem checkDescriptor_of_crossesCell {d : Descriptor} (hbi : d.byteIndex ≤ 12) (h : 8 < d.bitOffset + d.bitWidth)
    (i : Instr) : checkDescriptor d i = .error .crossesCell := by
  rw [checkDescriptor, if_neg (Nat.not_lt.mpr hbi), if_pos h]

/-- The fields of a command word are too narrow to break more than two of the checks of 20_memory.md R45. -/
theorem descriptorOf_wellFormed_iff {w : CommandWord} :
    (descriptorOf w).WellFormed ↔ biOf w ≤ 12 ∧ boOf w + wm1Of w ≤ 7 := by
  simp only [Descriptor.WellFormed, descriptorOf]
  omega

theorem checkDescriptor_descriptorOf_eq_ok {w : CommandWord} {i j : Instr}
    (h : checkDescriptor (descriptorOf w) i = .ok j) : (descriptorOf w).WellFormed ∧ j = i := by
  unfold checkDescriptor at h
  split at h
  next => cases h
  next hbi =>
    split at h
    next => cases h
    next hsum =>
      cases h
      refine ⟨descriptorOf_wellFormed_iff.mpr ?_, rfl⟩
      simp only [descriptorOf] at hbi hsum
      omega

/-! ### Encoding and decoding undo each other -/

theorem decode_encodeWord_rev {w : Nat} (hw : RevWidth w) (v : Byte) (x : FrameWord) :
    decode (encodeWord (.rev w v)) x = .ok (.rev w v) := by
  obtain ⟨hpos, hle⟩ := hw
  have hwidth : widthOf (encodeWord (.rev w v)) = w := by
    rw [widthOf, encodeWord, wm1Of_assemble]
    omega
  rw [decode_rowRev (Laws.TableRow.rev w v), hwidth, encodeWord, valOf_assemble]

theorem decode_encodeWord_replace (f : Frame) : decode (encodeWord (.replace f)) (packFrame f) = .ok (.replace f) := by
  rw [decode_rowReplace (Laws.TableRow.replace f), unpackFrame_packFrame]

theorem decode_encode {i : Instr} (hi : i.WellFormed) : decode (encodeWord i) (encodeOperand i) = .ok i := by
  cases i with
  | get d => exact Machine.decode_encodeWord_get ((wellFormed_get d).mp hi) _
  | set d v => exact Machine.decode_encodeWord_set ((wellFormed_set d v).mp hi) v _
  | namefor k raw => exact decode_namefor k raw _
  | commit => exact decode_rowCommit Laws.TableRow.commit _
  | verify => exact decode_rowVerify Laws.TableRow.verify _
  | replace f => exact decode_encodeWord_replace f
  | txread => exact decode_rowTxread Laws.TableRow.txread _
  | rev w v => exact decode_encodeWord_rev ((wellFormed_rev w v).mp hi) v _

theorem code_of_kindOfCode {code : Nat} {k : Kind} (h : kindOfCode code = some k) : k.code = code := by
  unfold kindOfCode at h
  split at h <;> cases h <;> rfl

/-- An accepted word selects a row, and is the encoding of the row's operation on the word's own operands. -/
theorem encode_of_decode_ok {w : CommandWord} {x : FrameWord} {i : Instr} (h : decode w x = .ok i) :
    i.WellFormed ∧ encodeWord i = w ∧ (opOf w = 6 → encodeOperand i = x) := by
  obtain hop | ⟨r, hr, hop, hs⟩ | ⟨r, hr, hs⟩ := word_cases w
  · cases (decode_of_reserved hop x).symm.trans h
  · cases (decode_of_not_selects hr hop hs x).symm.trans h
  rw [mem_opTable_iff] at hr
  rcases hr with rfl | rfl | rfl | rfl | rfl | rfl | rfl | rfl
  · obtain ⟨hop, hz, hval⟩ := selects_rowGet_iff.mp hs
    obtain ⟨hwf, rfl⟩ := checkDescriptor_descriptorOf_eq_ok ((decode_rowGet hs x).symm.trans h)
    have hw := assemble_fields w hz
    rw [hop, hval] at hw
    exact ⟨(wellFormed_get _).mpr hwf, hw, by omega⟩
  · obtain ⟨hop, hz⟩ := selects_rowSet_iff.mp hs
    obtain ⟨hwf, rfl⟩ := checkDescriptor_descriptorOf_eq_ok ((decode_rowSet hs x).symm.trans h)
    have hw := assemble_fields w hz
    rw [hop] at hw
    exact ⟨(wellFormed_set _ _).mpr hwf, hw, by omega⟩
  · obtain ⟨hop, hbo, hwm1, hinv, hz⟩ := selects_rowNamefor_iff.mp hs
    rw [decode_rowNamefor hs] at h
    cases hk : kindOfCode (biOf w) with
    | none => rw [hk] at h; cases h
    | some k =>
      rw [hk] at h
      cases h
      have hw := assemble_fields w hz
      rw [hop, hbo, hwm1, hinv, ← code_of_kindOfCode hk] at hw
      exact ⟨wellFormed_namefor _ _, hw, by omega⟩
  · cases (decode_rowCommit hs x).symm.trans h
    cases (selects_iff_eq_pattern rfl).mp hs
    exact ⟨wellFormed_commit, by decide, fun h6 => absurd h6 (by decide)⟩
  · cases (decode_rowVerify hs x).symm.trans h
    cases (selects_iff_eq_pattern rfl).mp hs
    exact ⟨wellFormed_verify, by decide, fun h6 => absurd h6 (by decide)⟩
  · cases (decode_rowReplace hs x).symm.trans h
    cases (selects_iff_eq_pattern rfl).mp hs
    exact ⟨wellFormed_replace _, rfl, fun _ => packFrame_unpackFrame x⟩
  · cases (decode_rowTxread hs x).symm.trans h
    cases (selects_iff_eq_pattern rfl).mp hs
    exact ⟨wellFormed_txread, by decide, fun h6 => absurd h6 (by decide)⟩
  · obtain ⟨hop, hbi, hbo, hinv, hz⟩ := selects_rowRev_iff.mp hs
    cases (decode_rowRev hs x).symm.trans h
    have hw := assemble_fields w hz
    rw [hop, hbi, hbo, hinv] at hw
    exact ⟨(wellFormed_rev _ _).mpr ⟨Nat.le_add_left .., wordField_lt w 10 3⟩, hw, by omega⟩

/-! ### Refused words -/

open Machine

/-- The cause applies to the word and none before it in the order of 60_exceptions.md R149 does. -/
def IsFirstCause (e : DecodeError) (w : CommandWord) : Prop :=
  RefusalCause e w ∧ ∀ e', refusalRank e' < refusalRank e → ¬ RefusalCause e' w

theorem exists_firstCause {w : CommandWord} (h : ∃ e, RefusalCause e w) : ∃ e, IsFirstCause e w := by
  obtain ⟨e, he, hmin⟩ := (measure refusalRank).wf.has_min {e | RefusalCause e w} h
  exact ⟨e, he, fun e' hlt he' => hmin e' he' hlt⟩

theorem selects_of_not_mustBeZero {r : OpRow} {w : CommandWord} (h : ¬ RefusalCause .mustBeZero w) (hr : r ∈ opTable)
    (hop : opOf w = r.op) : r.Selects w :=
  not_not.mp fun hs => h ⟨r, hr, hop.symm, hs⟩

/-- A word with the OP of GET or SET and its must-be-zero fields zero goes on to the check of its descriptor. -/
theorem decode_of_descriptor_word {w : CommandWord} (h : ¬ RefusalCause .mustBeZero w) (hop : opOf w = 1 ∨ opOf w = 2)
    (x : FrameWord) : ∃ i, decode w x = checkDescriptor (descriptorOf w) i := by
  rcases hop with hop | hop
  · exact ⟨_, decode_rowGet (selects_of_not_mustBeZero h (by decide) hop) x⟩
  · exact ⟨_, decode_rowSet (selects_of_not_mustBeZero h (by decide) hop) x⟩

theorem decode_of_isFirstCause {e : DecodeError} {w : CommandWord} (h : IsFirstCause e w) (x : FrameWord) :
    decode w x = .error e := by
  obtain ⟨hcause, hfirst⟩ := h
  cases e with
  | reservedOp => exact decode_of_reserved hcause x
  | mustBeZero =>
    obtain ⟨r, hr, hop, hs⟩ := hcause
    exact decode_of_not_selects hr hop hs x
  | byteIndexRange =>
    obtain ⟨hop, hbi⟩ := hcause
    obtain ⟨i, hi⟩ := decode_of_descriptor_word (hfirst .mustBeZero (by decide)) hop x
    rw [hi, checkDescriptor_of_byteIndexRange hbi]
  | crossesCell =>
    obtain ⟨hop, hsum⟩ := hcause
    obtain ⟨i, hi⟩ := decode_of_descriptor_word (hfirst .mustBeZero (by decide)) hop x
    have hbi : biOf w ≤ 12 := Nat.not_lt.mp fun hlt => hfirst .byteIndexRange (by decide) ⟨hop, hlt⟩
    have hcross : 8 < (descriptorOf w).bitOffset + (descriptorOf w).bitWidth := Nat.succ_lt_succ hsum
    rw [hi, checkDescriptor_of_crossesCell (d := descriptorOf w) hbi hcross]
  | reservedKind =>
    obtain ⟨hop, hkind⟩ := hcause
    have hs : rowNamefor.Selects w :=
      selects_of_not_mustBeZero (hfirst .mustBeZero (by decide)) (by decide) hop
    rw [decode_rowNamefor hs, kindOfCode_eq_none hkind, Option.elim_none]

theorem exists_kindOfCode {code : Nat} (h : code ≤ 5) : ∃ k, kindOfCode code = some k := by
  interval_cases code <;> exact ⟨_, rfl⟩

theorem decode_ok_of_no_cause {w : CommandWord} (h : ∀ e, ¬ RefusalCause e w) (x : FrameWord) :
    ∃ i, decode w x = .ok i := by
  obtain hop | ⟨r, hr, hop, hs⟩ | ⟨r, hr, hs⟩ := word_cases w
  · exact absurd hop (h .reservedOp)
  · exact absurd ⟨r, hr, hop, hs⟩ (h .mustBeZero)
  have hwf (hop : opOf w = 1 ∨ opOf w = 2) : (descriptorOf w).WellFormed :=
    descriptorOf_wellFormed_iff.mpr ⟨Nat.not_lt.mp fun hlt => h .byteIndexRange ⟨hop, hlt⟩,
      Nat.not_lt.mp fun hlt => h .crossesCell ⟨hop, hlt⟩⟩
  have hop := opOf_of_selects hr hs
  rw [mem_opTable_iff] at hr
  rcases hr with rfl | rfl | rfl | rfl | rfl | rfl | rfl | rfl
  · exact ⟨_, (decode_rowGet hs x).trans (checkDescriptor_of_wellFormed (hwf (.inl hop)) _)⟩
  · exact ⟨_, (decode_rowSet hs x).trans (checkDescriptor_of_wellFormed (hwf (.inr hop)) _)⟩
  · obtain ⟨k, hk⟩ := exists_kindOfCode (Nat.not_lt.mp fun hlt => h .reservedKind ⟨hop, hlt⟩)
    exact ⟨.namefor k (valOf w), by rw [decode_rowNamefor hs, hk, Option.elim_some]⟩
  · exact ⟨_, decode_rowCommit hs x⟩
  · exact ⟨_, decode_rowVerify hs x⟩
  · exact ⟨_, decode_rowReplace hs x⟩
  · exact ⟨_, decode_rowTxread hs x⟩
  · exact ⟨_, decode_rowRev hs x⟩

theorem decode_eq_error_iff {w : CommandWord} {x : FrameWord} {e : DecodeError} :
    decode w x = .error e ↔ IsFirstCause e w := by
  refine ⟨fun h => ?_, fun h => decode_of_isFirstCause h x⟩
  have hcause : ∃ e', RefusalCause e' w := by
    by_contra hnone
    obtain ⟨i, hi⟩ := decode_ok_of_no_cause (not_exists.mp hnone) x
    cases h.symm.trans hi
  obtain ⟨e', he'⟩ := exists_firstCause hcause
  cases h.symm.trans (decode_of_isFirstCause he' x)
  exact he'

/-! ### Byte streams -/

theorem wordBytes_append (w : CommandWord) :
    w.extractLsb' 16 8 ++ w.extractLsb' 8 8 ++ w.extractLsb' 0 8 = w := by
  apply BitVec.eq_of_toNat_eq
  have := w.isLt
  simp only [toNat_append_eq, BitVec.extractLsb'_toNat, Nat.shiftRight_eq_div_pow]
  omega

theorem readStream_with_frame {b0 b1 b2 : Byte} (h : opOf (b0 ++ b1 ++ b2) = 6) (x : FrameWord) (rest : List Byte) :
    readStream (b0 :: b1 :: b2 :: ((unpackFrame x).toList ++ rest)) = some (b0 ++ b1 ++ b2, x, rest) := by
  refine (if_pos h).trans ?_
  exact congrArg (fun y => some (b0 ++ b1 ++ b2, y, rest)) (packFrame_unpackFrame x)

theorem readStream_without_frame {b0 b1 b2 : Byte} (h : opOf (b0 ++ b1 ++ b2) ≠ 6) (rest : List Byte) :
    readStream (b0 :: b1 :: b2 :: rest) = some (b0 ++ b1 ++ b2, 0, rest) :=
  if_neg h

/-! ### The obligations -/

/-- Settles O8: each operation's word selects the operation's row, and its fields give the operands back. -/
theorem decodeOfEncodeIsTheOperation : Obligations.DecodeOfEncodeIsTheOperation :=
  fun _ => decode_encode

/-- Settles O9: an accepted word selects a row, and its fields assemble to the word again. -/
theorem encodeOfDecodeIsTheWord : Obligations.EncodeOfDecodeIsTheWord :=
  fun _ _ _ => encode_of_decode_ok

/-- Settles O10: the rows differ in OP, and an accepted word is the encoding of its operation, which selects its row. -/
theorem eachWordSelectsAtMostOneRow : Obligations.EachWordSelectsAtMostOneRow := by
  refine ⟨fun w r q hr hq hrw hqw => row_unique_of_selects hr hq hrw hqw, fun w x i h => ⟨row_mem_opTable i, ?_⟩⟩
  obtain ⟨-, hw, -⟩ := encode_of_decode_ok h
  exact hw ▸ Laws.TableRow.every i

/-- Settles O11. -/
theorem decodeNamesTheFirstCause : Obligations.DecodeNamesTheFirstCause :=
  fun _ _ _ => decode_eq_error_iff

/-- Settles O12. -/
theorem framePackingKeepsEveryBit : Obligations.FramePackingKeepsEveryBit :=
  ⟨fun f _ _ hi hj => getLsbD_packFrame f hi hj, unpackFrame_packFrame, packFrame_unpackFrame⟩

/-- Settles O13: the three bytes join to the word, whose OP says whether 13 cells follow. -/
theorem byteStreamReadsBack : Obligations.ByteStreamReadsBack := by
  intro w x rest
  have hw := wordBytes_append w
  by_cases hop : opOf w = 6
  · have hread := readStream_with_frame (hw.symm ▸ hop) x rest
    rw [hw] at hread
    rw [streamBytes, if_pos hop, if_pos hop]
    exact hread
  · have hread := readStream_without_frame (fun h => hop (hw ▸ h)) rest
    rw [hw] at hread
    rw [streamBytes, if_neg hop, if_neg hop]
    exact hread

/-- Settles O14. -/
theorem listedWordsDecode : Obligations.ListedWordsDecode := by
  unfold Obligations.ListedWordsDecode
  decide

end Sys2Proof

/-! # Fields and reversed values: GET, SET and REV (40_field_codec.md, 41_bit_reversal.md) -/

namespace Sys2Proof.Machine

/-! ### Fields that a SET leaves alone -/

/-- SET changes no bit of any cell outside its field (40_field_codec.md R91). -/
theorem cellBit_setField_of_uncovered {d : Descriptor} (hd : d.WellFormed) (f : Frame) (v : Byte) {i j : Nat}
    (h : ¬ Covers d i j) : cellBit (setField f d v) i j = cellBit f i j := by
  by_cases hi : i = d.byteIndex
  · subst hi
    exact cellBit_setField_of_not_covers hd f v h
  · rw [cellBit, readCell_setField_ne f d v hi, cellBit]

/-- The value of a field depends on the field's own bits alone (20_memory.md R41). -/
theorem getField_congr {e : Descriptor} (he : e.WellFormed) {f g : Frame}
    (h : ∀ j, Covers e e.byteIndex j → cellBit f e.byteIndex j = cellBit g e.byteIndex j) :
    getField f e = getField g e := by
  apply BitVec.eq_of_getLsbD_eq
  intro k _
  by_cases hk : k < e.bitWidth
  · have hpos := fieldPosition_lt hk
    rw [getLsbD_getField_eq_cellBit he f hk, getLsbD_getField_eq_cellBit he g hk]
    exact h _ ⟨rfl, by omega, by omega⟩
  · simp [getLsbD_getField he, hk]

theorem getField_setField_of_disjoint {d e : Descriptor} (hd : d.WellFormed) (he : e.WellFormed)
    (hdisjoint : DisjointFields d e) (f : Frame) (v : Byte) : getField (setField f d v) e = getField f e :=
  getField_congr he fun _ hj => cellBit_setField_of_uncovered hd f v fun hcov => hdisjoint _ _ hcov hj

/-! ### The value a SET writes -/

/-- GET after SET through the same descriptor (40_field_codec.md R92). -/
theorem getField_setField {d : Descriptor} (hd : d.WellFormed) (f : Frame) (v : Byte) :
    getField (setField f d v) d = modWidth d.bitWidth v := by
  apply BitVec.eq_of_getLsbD_eq
  intro k _
  rw [getLsbD_modWidth]
  by_cases hk : k < d.bitWidth
  · rw [getLsbD_getField_eq_cellBit hd _ hk, cellBit_setField_fieldPosition hd f v hk, decide_eq_true hk, Bool.true_and]
  · simp [getLsbD_getField hd, hk]

/-- Two frames with the same bits are the same. -/
theorem frame_ext_bits {f g : Frame} (h : ∀ i j, i < 13 → j < 8 → cellBit f i j = cellBit g i j) : f = g :=
  frame_ext fun i hi => BitVec.eq_of_getLsbD_eq fun j hj => h i j hi hj

/-- SET of the value a field already holds changes no cell (40_field_codec.md R91, corner cases). -/
theorem setField_getField {d : Descriptor} (hd : d.WellFormed) (f : Frame) : setField f d (getField f d) = f := by
  apply frame_ext_bits
  intro i j _ hj
  by_cases hcov : Covers d i j
  · obtain ⟨rfl, hlo, hhi⟩ := hcov
    have hk : j - d.bitOffset < d.bitWidth := by omega
    rw [cellBit_setField hd f _ hj, if_pos ⟨rfl, hlo, hhi⟩, getLsbD_getField_eq_cellBit hd f (fieldPosition_lt hk),
      fieldPosition_fieldPosition hk, Nat.add_sub_cancel' hlo]
  · exact cellBit_setField_of_uncovered hd f _ hcov

/-- The second of two SETs through one descriptor decides. -/
theorem setField_setField {d : Descriptor} (hd : d.WellFormed) (f : Frame) (u v : Byte) :
    setField (setField f d u) d v = setField f d v := by
  apply frame_ext_bits
  intro i j _ hj
  by_cases hcov : Covers d i j
  · obtain ⟨rfl, hlo, hhi⟩ := hcov
    rw [cellBit_setField hd _ v hj, cellBit_setField hd f v hj, if_pos ⟨rfl, hlo, hhi⟩, if_pos ⟨rfl, hlo, hhi⟩]
  · rw [cellBit_setField_of_uncovered hd _ v hcov, cellBit_setField_of_uncovered hd f u hcov,
      cellBit_setField_of_uncovered hd f v hcov]

theorem modWidth_congr {w : Nat} {v u : Byte} (h : v.toNat % 2 ^ w = u.toNat % 2 ^ w) :
    modWidth w v = modWidth w u := by
  rw [modWidth, h, modWidth]

/-- SET depends on its value modulo the width alone (60_exceptions.md R146). -/
theorem setField_congr {d : Descriptor} {v u : Byte} (h : modWidth d.bitWidth v = modWidth d.bitWidth u) (f : Frame) :
    setField f d v = setField f d u := by
  have hstored : storedForm d v = storedForm d u := by rw [storedForm, h, storedForm]
  rw [setField, insertField, hstored, setField, insertField]

/-! ### The canonical table (30_encoding.md R61) -/

theorem mem_fieldId_all (f : FieldId) : f ∈ FieldId.all := by cases f <;> decide

theorem canonical_wellFormed (f : FieldId) : f.descriptor.WellFormed ∧ 4 ≤ f.descriptor.byteIndex := by
  have hrows : ∀ f ∈ FieldId.all, f.descriptor.WellFormed ∧ 4 ≤ f.descriptor.byteIndex := by decide
  exact hrows f (mem_fieldId_all f)

/-- Two rows lie in different cells or one above the other. -/
theorem canonical_apart {f g : FieldId} (h : f ≠ g) :
    f.descriptor.byteIndex ≠ g.descriptor.byteIndex ∨
      f.descriptor.bitOffset + f.descriptor.bitWidth ≤ g.descriptor.bitOffset ∨
      g.descriptor.bitOffset + g.descriptor.bitWidth ≤ f.descriptor.bitOffset := by
  have hrows : ∀ f ∈ FieldId.all, ∀ g ∈ FieldId.all, f ≠ g →
      f.descriptor.byteIndex ≠ g.descriptor.byteIndex ∨
        f.descriptor.bitOffset + f.descriptor.bitWidth ≤ g.descriptor.bitOffset ∨
        g.descriptor.bitOffset + g.descriptor.bitWidth ≤ f.descriptor.bitOffset := by decide
  exact hrows f (mem_fieldId_all f) g (mem_fieldId_all g) h

theorem canonical_disjoint {f g : FieldId} (h : f ≠ g) : DisjointFields f.descriptor g.descriptor := by
  rintro i j ⟨hfi, hflo, hfhi⟩ ⟨hgi, hglo, hghi⟩
  have := canonical_apart h
  omega

/-! ### Reversed values -/

/-- Bit `j` of what REV answers is bit `w - 1 - j` of its operand (41_bit_reversal.md R100). -/
theorem getLsbD_revBits_modWidth {w : Nat} (hw : RevWidth w) (v : Byte) (j : Nat) :
    (revBits w (modWidth w v)).getLsbD j = (decide (j < w) && v.getLsbD (w - 1 - j)) := by
  obtain ⟨hpos, hle⟩ := hw
  rw [getLsbD_revBits hle, getLsbD_modWidth, decide_eq_true (show w - 1 - j < w by omega), Bool.true_and]

theorem exec_rev_of_revWidth {w : Nat} (hw : RevWidth w) (v : Byte) (s : State) :
    exec (.rev w v) s = .next (s.setResponse (some (okResponse (revBits w (modWidth w v))))) :=
  if_pos hw

theorem exec_rev_of_not_revWidth {w : Nat} (hw : ¬ RevWidth w) (v : Byte) (s : State) :
    exec (.rev w v) s = .next (s.setResponse (some refusedResponse)) :=
  if_neg hw

/-- The value REV answers is the reversal of its operand and no other. -/
theorem exec_rev_answers_iff {w : Nat} (hw : RevWidth w) {v u : Byte} {s : State} :
    exec (.rev w v) s = .next (s.setResponse (some (okResponse u))) ↔ revBits w (modWidth w v) = u := by
  rw [exec_rev_of_revWidth hw]
  constructor
  · intro h
    simpa [State.setResponse, okResponse] using h
  · rintro rfl
    rfl

/-- Reversing twice (41_bit_reversal.md R102). -/
theorem revBits_modWidth_twice {w : Nat} (hw : RevWidth w) (v : Byte) :
    revBits w (modWidth w (revBits w (modWidth w v))) = modWidth w v := by
  apply BitVec.eq_of_getLsbD_eq
  intro j _
  rw [getLsbD_revBits_modWidth hw, getLsbD_revBits_modWidth hw, getLsbD_modWidth]
  by_cases hj : j < w
  · rw [show w - 1 - (w - 1 - j) = j by omega, decide_eq_true (show w - 1 - j < w by omega), Bool.true_and]
  · simp [hj]

/-- Reversal is linear over XOR (41_bit_reversal.md R104). -/
theorem revBits_modWidth_xor {w : Nat} (hw : RevWidth w) (a b : Byte) :
    revBits w (modWidth w (a ^^^ b)) = revBits w (modWidth w a) ^^^ revBits w (modWidth w b) := by
  apply BitVec.eq_of_getLsbD_eq
  intro j _
  rw [BitVec.getLsbD_xor, getLsbD_revBits_modWidth hw, getLsbD_revBits_modWidth hw, getLsbD_revBits_modWidth hw,
    BitVec.getLsbD_xor, Bool.and_xor_distrib_left]

theorem revBits_modWidth_zero {w : Nat} (hw : RevWidth w) : revBits w (modWidth w 0) = 0 := by
  have h := revBits_modWidth_xor hw 0 0
  rwa [BitVec.xor_self, BitVec.xor_self] at h

/-! ### The obligations -/

/-- Settles O17. -/
theorem getAfterSetReturnsTheValue : Obligations.GetAfterSetReturnsTheValue := by
  intro d v s t hd hset
  cases (exec_set_of_wellFormed hd v s).symm.trans hset
  refine ⟨_, exec_get_of_wellFormed hd _, ?_⟩
  rw [setResponse_buffer, setBuffer_buffer, getField_setField hd, modWidth_toNat]

/-- Settles O18. -/
theorem setKeepsEveryDisjointField : Obligations.SetKeepsEveryDisjointField := by
  intro d e v s t hd he hdisjoint hset
  cases (exec_set_of_wellFormed hd v s).symm.trans hset
  exact getField_setField_of_disjoint hd he hdisjoint s.buffer v

/-- Settles O19: the rows of the canonical table share no bit, and none lies below cell 4. -/
theorem setOfACanonicalFieldKeepsTheOthers : Obligations.SetOfACanonicalFieldKeepsTheOthers := by
  intro f g v s t hset
  obtain ⟨hf, hcell⟩ := canonical_wellFormed f
  obtain ⟨hg, -⟩ := canonical_wellFormed g
  cases (exec_set_of_wellFormed hf v s).symm.trans hset
  refine ⟨fun i hi => readCell_setField_ne s.buffer _ v (by omega), fun hne => ?_⟩
  exact getField_setField_of_disjoint hf hg (canonical_disjoint hne) s.buffer v

/-- Settles O20. -/
theorem setOfTheHeldValueChangesNoCell : Obligations.SetOfTheHeldValueChangesNoCell := by
  intro d s hd
  rw [exec_set_of_wellFormed hd, setField_getField hd, setBuffer_self]

/-- Settles O21: both operations reduce their value modulo the width before they use it. -/
theorem outOfRangeValuesAreMaskedSilently : Obligations.OutOfRangeValuesAreMaskedSilently := by
  refine ⟨fun d v u s h => ?_, fun w v u s h => ?_⟩
  · by_cases hd : d.WellFormed
    · rw [exec_set_of_wellFormed hd, exec_set_of_wellFormed hd, setField_congr (modWidth_congr h)]
    · rw [exec_set_of_not_wellFormed hd, exec_set_of_not_wellFormed hd]
  · by_cases hw : RevWidth w
    · rw [exec_rev_of_revWidth hw, exec_rev_of_revWidth hw, modWidth_congr h]
    · rw [exec_rev_of_not_revWidth hw, exec_rev_of_not_revWidth hw]

/-- Settles O22, by looking at the 24 rows and the 104 bits. -/
theorem canonicalFieldsPartitionTheCells : Obligations.CanonicalFieldsPartitionTheCells := by
  unfold Obligations.CanonicalFieldsPartitionTheCells
  decide

/-- Settles O23. -/
theorem revReversesTheBits : Obligations.RevReversesTheBits := by
  intro w v s
  refine ⟨fun hw => ⟨_, exec_rev_of_revWidth hw v s, ?_, fun k hk => ?_⟩, fun hw => exec_rev_of_not_revWidth hw v s⟩
  · apply toNat_lt_of_bits
    intro j hj
    simp [getLsbD_revBits_modWidth hw, Nat.not_lt.mpr hj]
  · rw [getLsbD_revBits_modWidth hw, decide_eq_true hk, Bool.true_and]

/-- Settles O24. -/
theorem revTwiceReturnsTheValue : Obligations.RevTwiceReturnsTheValue := by
  intro w v u s hw hu
  obtain rfl := (exec_rev_answers_iff hw).mp hu
  exact ⟨_, (exec_rev_answers_iff hw).mpr (revBits_modWidth_twice hw v), modWidth_toNat w v⟩

/-- Settles O25. -/
theorem revIsLinearOverXor : Obligations.RevIsLinearOverXor := by
  intro w a b a' b' s hw ha hb
  obtain rfl := (exec_rev_answers_iff hw).mp ha
  obtain rfl := (exec_rev_answers_iff hw).mp hb
  exact ⟨(exec_rev_answers_iff hw).mpr (revBits_modWidth_xor hw a b),
    (exec_rev_answers_iff hw).mpr (revBits_modWidth_zero hw)⟩

end Sys2Proof.Machine

/-! # The table of enumerated values (42_enum_lookup.md R111 to R115) -/

namespace Sys2Proof

/-! ### No value twice, every value within the field -/

section assignValues

variable {given : EnumSymbol → Option Byte} {choice : EnumSymbol → Nat} {c : EnumSymbol}

theorem assignValues_cons_given {v : Byte} (h : given c = some v) (cs : List EnumSymbol) (free : List Byte) :
    assignValues given choice (c :: cs) free = (c, v) :: assignValues given choice cs free := by
  rw [assignValues, h]

theorem assignValues_cons_none (h : given c = none) (cs : List EnumSymbol) (free : List Byte) :
    assignValues given choice (c :: cs) free =
      (c, free.getD (choice c % free.length) 0) ::
        assignValues given choice cs (free.eraseIdx (choice c % free.length)) := by
  rw [assignValues, h]

end assignValues

/-- Each value in the table is the one given some constant of it, or a free one. -/
theorem given_or_mem_free_of_mem_values {given : EnumSymbol → Option Byte} {choice : EnumSymbol → Nat}
    {cs : List EnumSymbol} {free : List Byte} {v : Byte}
    (hlen : cs.countP (fun d => (given d).isNone) ≤ free.length)
    (h : v ∈ (assignValues given choice cs free).map Prod.snd) : (∃ d ∈ cs, given d = some v) ∨ v ∈ free := by
  obtain ⟨⟨d, u⟩, hd, rfl⟩ := List.mem_map.mp h
  refine (given_or_mem_free_of_mem_assignValues hlen hd).imp_left fun hgiven => ⟨d, ?_, hgiven⟩
  have hkey := List.mem_map_of_mem (f := Prod.fst) hd
  rwa [assignValues_fst] at hkey

/-- The values of a table are distinct when the given ones are, and none of them is free. -/
theorem assignValues_snd_nodup {given : EnumSymbol → Option Byte} {choice : EnumSymbol → Nat}
    (hunique : ∀ c d v, given c = some v → given d = some v → c = d) {cs : List EnumSymbol} (hcs : cs.Nodup)
    {free : List Byte} (hfree : free.Nodup) (hgiven : ∀ c v, given c = some v → v ∉ free)
    (hlen : cs.countP (fun d => (given d).isNone) ≤ free.length) :
    ((assignValues given choice cs free).map Prod.snd).Nodup := by
  induction cs generalizing free with
  | nil => exact List.nodup_nil
  | cons c cs ih =>
    obtain ⟨hc, hcs⟩ := List.nodup_cons.mp hcs
    cases hv : given c with
    | some v =>
      have hcount : cs.countP (fun d => (given d).isNone) ≤ free.length := by
        simpa [List.countP_cons, hv] using hlen
      rw [assignValues_cons_given hv]
      refine List.nodup_cons.mpr ⟨fun hmem => ?_, ih hcs hfree hgiven hcount⟩
      rcases given_or_mem_free_of_mem_values hcount hmem with ⟨d, hd, hdv⟩ | hmem
      · exact hc (hunique c d v hv hdv ▸ hd)
      · exact hgiven c v hv hmem
    | none =>
      have hcount : cs.countP (fun d => (given d).isNone) + 1 ≤ free.length := by
        simpa [List.countP_cons, hv] using hlen
      have hn : choice c % free.length < free.length := Nat.mod_lt _ (by omega)
      have hrest : cs.countP (fun d => (given d).isNone) ≤ (free.eraseIdx (choice c % free.length)).length := by
        rw [List.length_eraseIdx_of_lt hn]
        omega
      rw [assignValues_cons_none hv, List.getD_eq_getElem _ _ hn]
      refine List.nodup_cons.mpr ⟨fun hmem => ?_, ih hcs (hfree.eraseIdx _) (fun d u hd hu =>
        hgiven d u hd (List.mem_of_mem_eraseIdx hu)) hrest⟩
      rcases given_or_mem_free_of_mem_values hrest hmem with ⟨d, -, hdv⟩ | hmem
      · exact hgiven d _ hdv (List.getElem_mem hn)
      · rw [← hfree.erase_getElem _ hn] at hmem
        exact hfree.not_mem_erase hmem

theorem freeValues_nodup (k : Kind) : (freeValues k).Nodup := by cases k <;> decide

theorem width_le_eight (k : Kind) : k.width ≤ 8 := by cases k <;> decide

/-- The free values of a kind are those within its field that the spec gives no constant. -/
theorem mem_freeValues_iff {k : Kind} {v : Byte} :
    v ∈ freeValues k ↔ v.toNat < 2 ^ k.width ∧ ∀ c, givenValue k c ≠ some v := by
  constructor
  · intro hv
    refine ⟨?_, fun c hc => not_mem_freeValues_of_given hc hv⟩
    obtain ⟨n, hn, rfl⟩ := List.mem_map.mp (List.mem_of_mem_filter hv)
    exact (Nat.mod_le n (2 ^ 8)).trans_lt (List.mem_range.mp hn)
  · rintro ⟨hlt, hnone⟩
    refine List.mem_filter.mpr ⟨List.mem_map.mpr ⟨v.toNat, List.mem_range.mpr hlt, by simp⟩, ?_⟩
    simp [isGiven, hnone]

theorem enumRow_snd_nodup (k : Kind) : ((enumRow k).map Prod.snd).Nodup :=
  assignValues_snd_nodup (fun _ _ _ hc hd => given_constant_unique hc hd) (constants_nodup k) (freeValues_nodup k)
    (fun _ _ hc => not_mem_freeValues_of_given hc) (freeValues_enough k)

theorem givenValue_lt {k : Kind} {c : EnumSymbol} {v : Byte} (h : givenValue k c = some v) : v.toNat < 2 ^ k.width := by
  rcases givenValue_eq_some_iff.mp h with ⟨rfl, -, rfl⟩ | ⟨rfl, -, rfl⟩ | ⟨rfl, -, rfl⟩ <;> decide

theorem enumRow_admissible (k : Kind) : (enumRow k).Admissible k := by
  refine ⟨enumRow_fst k, fun c v h => assignValues_given h (mem_constants_of_given h) _, enumRow_snd_nodup k, ?_⟩
  rintro ⟨c, v⟩ hp
  rcases given_or_mem_free_of_mem_assignValues (freeValues_enough k) hp with hgiven | hfree
  · exact givenValue_lt hgiven
  · exact (mem_freeValues_iff.mp hfree).1

/-! ### Every admissible table is some choice -/

/-- A table looks at the choice for its own constants alone. -/
theorem assignValues_congr {given : EnumSymbol → Option Byte} {choice choice' : EnumSymbol → Nat}
    {cs : List EnumSymbol} (h : ∀ c ∈ cs, choice c = choice' c) (free : List Byte) :
    assignValues given choice cs free = assignValues given choice' cs free := by
  induction cs generalizing free with
  | nil => rfl
  | cons c cs ih =>
    have hcs : ∀ free, assignValues given choice cs free = assignValues given choice' cs free :=
      ih fun d hd => h d (List.mem_cons_of_mem c hd)
    simp only [assignValues, hcs, h c (List.mem_cons_self ..)]

/-- A table whose values are the given ones and distinct free ones is picked by some choice: for each constant the
place of its value among those still free. -/
theorem exists_choice {given : EnumSymbol → Option Byte} {row : EnumRow} (hkeys : (row.map Prod.fst).Nodup)
    (hvalues : (row.map Prod.snd).Nodup) {free : List Byte}
    (hrow : ∀ p ∈ row, given p.1 = some p.2 ∨ (given p.1 = none ∧ p.2 ∈ free)) :
    ∃ choice, assignValues given choice (row.map Prod.fst) free = row := by
  induction row generalizing free with
  | nil => exact ⟨fun _ => 0, rfl⟩
  | cons p row ih =>
    obtain ⟨c, v⟩ := p
    obtain ⟨hc, hkeys⟩ := List.nodup_cons.mp hkeys
    obtain ⟨hv, hvalues⟩ := List.nodup_cons.mp hvalues
    obtain ⟨hhead, htail⟩ := List.forall_mem_cons.mp hrow
    rcases hhead with hgiven | ⟨hnone, hfree⟩
    · obtain ⟨choice, hchoice⟩ := ih hkeys hvalues htail
      exact ⟨choice, by rw [List.map_cons, assignValues_cons_given hgiven, hchoice]⟩
    · have hn : free.idxOf v < free.length := List.idxOf_lt_length_of_mem hfree
      have hrest : ∀ p ∈ row, given p.1 = some p.2 ∨ (given p.1 = none ∧ p.2 ∈ free.eraseIdx (free.idxOf v)) := by
        intro p hp
        refine (htail p hp).imp_right fun ⟨hnone', hmem⟩ => ⟨hnone', ?_⟩
        have hne : p.2 ≠ v := fun h => hv (List.mem_map.mpr ⟨p, hp, h⟩)
        rw [List.eraseIdx_idxOf_eq_erase]
        exact (List.mem_erase_of_ne hne).mpr hmem
      obtain ⟨choice, hchoice⟩ := ih hkeys hvalues hrest
      refine ⟨Function.update choice c (free.idxOf v), ?_⟩
      have hcongr : ∀ d ∈ row.map Prod.fst, Function.update choice c (free.idxOf v) d = choice d :=
        fun d hd => Function.update_of_ne (ne_of_mem_of_not_mem hd hc) ..
      rw [List.map_cons, assignValues_cons_none hnone, Function.update_self, Nat.mod_eq_of_lt hn,
        List.getD_eq_getElem _ _ hn, List.getElem_idxOf, assignValues_congr hcongr, hchoice]

/-- Each entry of an admissible table is given or free. -/
theorem given_or_free_of_admissible {k : Kind} {row : EnumRow} (h : row.Admissible k) {p : EnumSymbol × Byte}
    (hp : p ∈ row) : givenValue k p.1 = some p.2 ∨ (givenValue k p.1 = none ∧ p.2 ∈ freeValues k) := by
  obtain ⟨hkeys, hgiven, hvalues, hlt⟩ := h
  cases hg : givenValue k p.1 with
  | some u =>
    have hnodup : (row.map Prod.fst).Nodup := hkeys ▸ constants_nodup k
    have heq := List.inj_on_of_nodup_map hnodup hp (hgiven _ _ hg) rfl
    exact .inl (by rw [heq])
  | none =>
    refine .inr ⟨rfl, mem_freeValues_iff.mpr ⟨hlt p hp, fun c hc => ?_⟩⟩
    have heq := List.inj_on_of_nodup_map hvalues hp (hgiven _ _ hc) rfl
    rw [heq] at hg
    exact absurd hc (by simp [hg])

theorem exists_choice_of_admissible {k : Kind} {row : EnumRow} (h : row.Admissible k) :
    ∃ choice, assignValues (givenValue k) choice k.constants (freeValues k) = row := by
  obtain ⟨hkeys, -, hvalues, -⟩ := id h
  rw [← hkeys]
  exact exists_choice (hkeys ▸ constants_nodup k) hvalues fun p hp => given_or_free_of_admissible h hp

/-! ### Known and unknown values -/

theorem unknown_not_mem_constants (k : Kind) : EnumSymbol.unknown ∉ k.constants := by cases k <;> decide

/-- A constant's own value is looked up as the constant, since no other constant has it (42_enum_lookup.md R113 (b)). -/
theorem symbolFor_of_enumValue {k : Kind} {c : EnumSymbol} {v : Byte} (h : enumValue k c = some v) :
    symbolFor (enumRow k) v = c := by
  rcases symbolFor_enumRow_cases k v with hv | ⟨-, hnone⟩
  · have heq := List.inj_on_of_nodup_map (enumRow_snd_nodup k) (enumValue_eq_some_iff.mp hv)
      (enumValue_eq_some_iff.mp h) rfl
    exact congrArg Prod.fst heq
  · exact absurd h (hnone c)

theorem symbolFor_eq_unknown_iff {k : Kind} {v : Byte} :
    symbolFor (enumRow k) v = .unknown ↔ v ∉ (enumRow k).map Prod.snd := by
  constructor
  · intro h hv
    obtain ⟨⟨c, u⟩, hp, rfl⟩ := List.mem_map.mp hv
    have hc := symbolFor_of_enumValue (enumValue_eq_some_iff.mpr hp)
    have hkey := List.mem_map_of_mem (f := Prod.fst) hp
    rw [enumRow_fst] at hkey
    exact unknown_not_mem_constants k (hc.symm.trans h ▸ hkey)
  · intro h
    rcases symbolFor_enumRow_cases k v with hv | ⟨hunknown, -⟩
    · exact absurd (List.mem_map_of_mem (f := Prod.snd) (enumValue_eq_some_iff.mp hv)) h
    · exact hunknown

theorem enumRow_value_lt {k : Kind} {v : Byte} (h : v ∈ (enumRow k).map Prod.snd) : v.toNat < 2 ^ k.width := by
  obtain ⟨-, -, -, hlt⟩ := enumRow_admissible k
  obtain ⟨p, hp, rfl⟩ := List.mem_map.mp h
  exact hlt p hp

/-- The raw values of a kind's field that are known are the values of the table. -/
theorem length_known (k : Kind) :
    ((List.range (2 ^ k.width)).filter fun n => decide (BitVec.ofNat 8 n ∈ (enumRow k).map Prod.snd)).length =
      k.constants.length := by
  have hperm : ((List.range (2 ^ k.width)).filter fun n => decide (BitVec.ofNat 8 n ∈ (enumRow k).map Prod.snd)).Perm
      (((enumRow k).map Prod.snd).map BitVec.toNat) := by
    refine (List.perm_ext_iff_of_nodup (List.nodup_range.filter _)
      ((enumRow_snd_nodup k).map BitVec.toNat_injective)).mpr fun n => ?_
    have hpow : 2 ^ k.width ≤ 2 ^ 8 := Nat.pow_le_pow_right (by decide) (width_le_eight k)
    simp only [List.mem_filter, List.mem_range, decide_eq_true_eq, List.mem_map (f := BitVec.toNat)]
    constructor
    · rintro ⟨hn, hmem⟩
      exact ⟨_, hmem, Nat.mod_eq_of_lt (by omega)⟩
    · rintro ⟨v, hv, rfl⟩
      exact ⟨enumRow_value_lt hv, by rwa [BitVec.ofNat_toNat, BitVec.setWidth_eq]⟩
  rw [hperm.length_eq, ← enumRow_fst, List.length_map, List.length_map, List.length_map]

theorem length_unknown (k : Kind) :
    ((List.range (2 ^ k.width)).filter fun n => symbolFor (enumRow k) (BitVec.ofNat 8 n) = .unknown).length =
      2 ^ k.width - k.constants.length := by
  have hsum := (List.range (2 ^ k.width)).length_eq_length_filter_add
    fun n => decide (BitVec.ofNat 8 n ∈ (enumRow k).map Prod.snd)
  simp only [symbolFor_eq_unknown_iff]
  rw [List.length_range, length_known] at hsum
  simp at hsum ⊢
  omega

theorem name_ne_empty (c : EnumSymbol) : c.name ≠ "" := by cases c <;> decide

end Sys2Proof

namespace Sys2Proof.Machine

theorem kind_width_eq (k : Kind) : k.field.descriptor.bitWidth = k.width := rfl

theorem modWidth_of_lt {w : Nat} {v : Byte} (h : v.toNat < 2 ^ w) : modWidth w v = v := by
  apply BitVec.eq_of_toNat_eq
  rw [modWidth_toNat, Nat.mod_eq_of_lt h]

/-! ### The obligations -/

/-- Settles O28: each constant draws a value still free, and each admissible table says which one it drew. -/
theorem theEnumerationTableIsAnyAdmissibleOne : Obligations.TheEnumerationTableIsAnyAdmissibleOne := by
  refine ⟨enumRow_admissible, fun row hrow => ?_⟩
  choose choice hchoice using fun k => exists_choice_of_admissible (hrow k)
  exact ⟨choice, hchoice⟩

/-- Settles O29: a value is unknown exactly when it is no constant's, and the constants' values are distinct. -/
theorem nameforCountsOfUnknownValues : Obligations.NameforCountsOfUnknownValues := by
  refine ⟨length_unknown, fun k raw hraw => symbolFor_eq_unknown_iff.mpr fun hmem => ?_, name_ne_empty⟩
  exact Nat.not_lt.mpr hraw (enumRow_value_lt hmem)

/-- Settles O30: the constant's value fits its field, so GET answers it, and NAMEFOR finds the constant alone. -/
theorem namedConstantReadsBack : Obligations.NamedConstantReadsBack := by
  intro k c a i s t hexpand hset
  obtain ⟨v, hv, hi⟩ := Option.map_eq_some_iff.mp hexpand
  cases hi
  obtain ⟨hd, -⟩ := canonical_wellFormed k.field
  cases (exec_set_of_wellFormed hd v s).symm.trans hset
  have hlt : v.toNat < 2 ^ k.width :=
    enumRow_value_lt (List.mem_map_of_mem (f := Prod.snd) (enumValue_eq_some_iff.mp hv))
  have hget : getField (setField s.buffer k.field.descriptor v) k.field.descriptor = v := by
    rw [getField_setField hd, kind_width_eq, modWidth_of_lt hlt]
  refine ⟨v, _, rfl, exec_get_of_wellFormed hd _, ?_, ?_⟩
  · rw [setResponse_response, setResponse_buffer, setBuffer_buffer, hget]
  · rw [exec_namefor, symbolFor_of_enumValue hv]

end Sys2Proof.Machine

/-! # The committed condition as a parity (43_checksum.md R122 to R130) -/

namespace Sys2Proof.Machine

/-! ### The condition nibble -/

/-- Clearing the checksum takes the stored checksum out of the fold. -/
theorem fold8_clearChecksum (f : Frame) : fold8 (clearChecksum f) = fold8 f ^^^ (readCell f 12 &&& 0x0F) := by
  have hlow (b : Byte) : b ^^^ (b &&& 0xF0) = b &&& 0x0F := by
    revert b
    decide
  rw [clearChecksum, fold8_writeCell f (by decide), hlow]

theorem nib_and_lowMask (b : Byte) : nib (b &&& 0x0F) = b &&& 0x0F := by
  revert b
  decide

/-- A frame is committed exactly when its condition nibble, `nib(fold8)`, is zero (43_checksum.md R128). -/
theorem committed_iff_nib_fold8 (f : Frame) : committed f = true ↔ nib (fold8 f) = 0 := by
  have hcks : cks f = nib (fold8 f) ^^^ (readCell f 12 &&& 0x0F) := by
    rw [cks, fold8_clearChecksum, nib_xor, nib_and_lowMask]
  rw [committed_iff, hcks]
  constructor
  · intro h
    exact (BitVec.xor_left_inj (readCell f 12 &&& 0x0F)).mp (h.symm.trans BitVec.zero_xor.symm)
  · intro h
    rw [h]
    exact BitVec.zero_xor.symm

theorem committed_eq_false_iff (f : Frame) : committed f = false ↔ nib (fold8 f) ≠ 0 := by
  rw [← Bool.not_eq_true, committed_iff_nib_fold8]

/-! ### Columns of bits -/

theorem getLsbD_fold8 (f : Frame) (k : Nat) :
    (fold8 f).getLsbD k = (List.range 13).foldl (fun p i => p ^^ cellBit f i k) false := by
  simp [fold8_eq, List.range_succ, cellBit, readCell]

theorem foldl_xor_xor {α : Type} (a b : α → Bool) (l : List α) (p q : Bool) :
    l.foldl (fun r i => r ^^ (a i ^^ b i)) (p ^^ q) =
      (l.foldl (fun r i => r ^^ a i) p ^^ l.foldl (fun r i => r ^^ b i) q) := by
  induction l generalizing p q with
  | nil => rfl
  | cons i l ih => simp only [List.foldl_cons, ← ih, Bool.xor_assoc, Bool.xor_left_comm q]

/-- The parity of two columns is the difference of two bits of the fold. -/
theorem columnParity_eq (f : Frame) (k : Nat) :
    columnParity f k = ((fold8 f).getLsbD k ^^ (fold8 f).getLsbD (k + 4)) := by
  rw [getLsbD_fold8, getLsbD_fold8, ← foldl_xor_xor]
  rfl

theorem nib_eq_zero_iff (x : Byte) : nib x = 0 ↔ ∀ k, k < 4 → (x.getLsbD k ^^ x.getLsbD (k + 4)) = false := by
  constructor
  · intro h k hk
    have hbit := getLsbD_nib x k
    rw [h, decide_eq_true hk, Bool.true_and] at hbit
    rw [← hbit]
    exact BitVec.getLsbD_zero
  · intro h
    apply BitVec.eq_of_getLsbD_eq
    intro k _
    rw [getLsbD_nib, show (0 : Byte).getLsbD k = false from BitVec.getLsbD_zero]
    by_cases hk : k < 4
    · rw [h k hk, Bool.and_false]
    · rw [decide_eq_false hk, Bool.false_and]

/-! ### Changes of a cell -/

theorem fold8_flipBit (f : Frame) {i : Nat} (hi : i < 13) (j : Nat) :
    fold8 (flipBit f i j) = fold8 f ^^^ BitVec.ofNat 8 (2 ^ j) := by
  rw [flipBit, fold8_writeCell f hi, ← BitVec.xor_assoc (readCell f i), BitVec.xor_self, BitVec.zero_xor]

/-- The nibble of a single bit is the bit at its position modulo 4. -/
theorem nib_two_pow {j : Nat} (hj : j < 8) : nib (BitVec.ofNat 8 (2 ^ j)) = BitVec.ofNat 8 (2 ^ (j % 4)) := by
  revert j
  decide

/-- Flipping a bit of a frame moves the condition nibble at the bit's position modulo 4 (43_checksum.md R129). -/
theorem nib_fold8_flipBit (f : Frame) {i j : Nat} (hi : i < 13) (hj : j < 8) :
    nib (fold8 (flipBit f i j)) = nib (fold8 f) ^^^ BitVec.ofNat 8 (2 ^ (j % 4)) := by
  rw [fold8_flipBit f hi, nib_xor, nib_two_pow hj]

theorem nibble_bit_eq_iff {a b : Nat} (ha : a < 4) (hb : b < 4) :
    BitVec.ofNat 8 (2 ^ a) = BitVec.ofNat 8 (2 ^ b) ↔ a = b := by
  have hbits : ∀ a < 4, ∀ b < 4, BitVec.ofNat 8 (2 ^ a) = BitVec.ofNat 8 (2 ^ b) ↔ a = b := by decide
  exact hbits a ha b hb

theorem nibble_bit_ne_zero {a : Nat} (ha : a < 4) : BitVec.ofNat 8 (2 ^ a) ≠ 0 := by
  revert a
  decide

theorem fold8_setField (f : Frame) {d : Descriptor} (hd : d.WellFormed) (v : Byte) :
    fold8 (setField f d v) =
      fold8 f ^^^ (readCell f d.byteIndex ^^^ readCell (setField f d v) d.byteIndex) := by
  obtain ⟨hbi, -⟩ := hd
  have hi : d.byteIndex < 13 := by omega
  rw [setField, fold8_writeCell f hi, readCell_writeCell_self f hi]

/-! ### The checksum field -/

theorem readCell_setField_checksum (f : Frame) (v : Byte) :
    readCell (setField f FieldId.checksum.descriptor v) 12 = (readCell f 12 &&& 0xF0) ||| (v &&& 0x0F) := by
  rw [setField_checksum, readCell_writeCell_self f (by decide)]

theorem and_lowMask_idem (v : Byte) : (v &&& 0x0F) &&& 0x0F = v &&& 0x0F := by
  rw [BitVec.and_assoc, BitVec.and_self]

theorem cks_setField_checksum (f : Frame) (v : Byte) : cks (setField f FieldId.checksum.descriptor v) = cks f := by
  refine cks_congr (fun i hi => readCell_setField_ne f _ v hi) ?_
  rw [readCell_setField_checksum, highNibble_or_and_highMask _ (and_lowMask_idem v)]

theorem committed_setField_checksum_iff (f : Frame) (v : Byte) :
    committed (setField f FieldId.checksum.descriptor v) = true ↔ v.toNat % 16 = (cks f).toNat := by
  have hv : (v &&& 0x0F).toNat = v.toNat % 16 := by
    rw [← modWidth_four]
    exact modWidth_toNat 4 v
  rw [committed_iff, cks_setField_checksum, readCell_setField_checksum,
    highNibble_or_and_lowMask _ (and_lowMask_idem v), ← BitVec.toNat_inj, hv]

/-! ### The obligations -/

/-- Settles O34. -/
theorem checksumIgnoresTheStoredNibble : Obligations.ChecksumIgnoresTheStoredNibble :=
  fun _ _ => cks_congr

/-- Settles O35: bit `k` of the condition nibble is the parity of columns `k` and `k + 4`. -/
theorem committedIsEvenColumnParity : Obligations.CommittedIsEvenColumnParity := by
  intro f
  simp only [committed_iff_nib_fold8, nib_eq_zero_iff, columnParity_eq]

/-- Settles O36: a flipped bit changes one bit of the condition nibble, and a second one undoes it exactly when it
changes the same bit. -/
theorem bitErrorsDetected : Obligations.BitErrorsDetected := by
  intro f i j hf hi hj
  have hone : nib (fold8 (flipBit f i j)) = BitVec.ofNat 8 (2 ^ (j % 4)) := by
    rw [nib_fold8_flipBit f hi hj, (committed_iff_nib_fold8 f).mp hf]
    exact BitVec.zero_xor
  refine ⟨?_, fun i' j' hi' hj' _ => ?_⟩
  · rw [committed_eq_false_iff, hone]
    exact nibble_bit_ne_zero (Nat.mod_lt j (by decide))
  · rw [committed_iff_nib_fold8, nib_fold8_flipBit _ hi' hj', hone]
    exact BitVec.xor_eq_zero_iff.trans (nibble_bit_eq_iff (Nat.mod_lt j (by decide)) (Nat.mod_lt j' (by decide)))

/-- Settles O37: SET changes the fold by the change of its cell. -/
theorem setMovesTheConditionByTheNibbleOfTheChange : Obligations.SetMovesTheConditionByTheNibbleOfTheChange := by
  intro d v s t hd hset
  cases (exec_set_of_wellFormed hd v s).symm.trans hset
  rw [setResponse_buffer, setBuffer_buffer, committed_iff_nib_fold8, fold8_setField _ hd, nib_xor]

/-- Settles O38. -/
theorem setOfTheChecksumFieldCommitsExactlyTheChecksum :
    Obligations.SetOfTheChecksumFieldCommitsExactlyTheChecksum := by
  intro v s t hset
  cases (exec_set_of_wellFormed (by decide) v s).symm.trans hset
  exact committed_setField_checksum_iff s.buffer v

end Sys2Proof.Machine

/-! # The whole machine: operations, steps and runs -/

namespace Sys2Proof.Machine

/-! ### What an operation leaves in the buffer and answers -/

/-- The buffer an operation leaves when it goes on (10_state.md R21, R22). -/
def bufferAfter (f : Frame) : Instr → Frame
  | .set d v => if d.WellFormed then setField f d v else f
  | .commit => commitFrame f
  | .replace g => g
  | _ => f

/-- The response of an operation that goes on. -/
def answerTo (f : Frame) : Instr → Response
  | .get d => if d.WellFormed then okResponse (getField f d) else refusedResponse
  | .set d _ => if d.WellFormed then okResponse 0 else refusedResponse
  | .namefor k raw => okResponse (symbolFor (enumRow k) raw).id
  | .commit => okResponse 0
  | .verify => okResponse (if committed f then 1 else 0)
  | .replace _ => okResponse 0
  | .txread => frameResponse (packFrame f)
  | .rev w v => if RevWidth w then okResponse (revBits w (modWidth w v)) else refusedResponse

/-- The operation goes on: it is no TXREAD of a dirty buffer (44_buffer_lifecycle.md R137). -/
def GoesOn (f : Frame) (i : Instr) : Prop := i = .txread → committed f = true

/-- Every operation but TXREAD goes on whatever the buffer. -/
theorem goesOn_of_ne_txread {i : Instr} {f : Frame} (h : i ≠ .txread := by nofun) : GoesOn f i :=
  fun hi => absurd hi h

theorem exec_txread_of_committed {s : State} (h : committed s.buffer = true) :
    exec .txread s = .next (s.setResponse (some (frameResponse (packFrame s.buffer)))) :=
  if_pos h

theorem exec_txread_of_dirty {s : State} (h : committed s.buffer = false) :
    exec .txread s = staleTransmit (packFrame s.buffer) :=
  if_neg (by simp [h])

theorem exec_of_goesOn {i : Instr} {s : State} (h : GoesOn s.buffer i) :
    exec i s = .next ((s.setBuffer (bufferAfter s.buffer i)).setResponse (some (answerTo s.buffer i))) := by
  cases i with
  | get d =>
    by_cases hd : d.WellFormed
    · rw [exec_get_of_wellFormed hd, answerTo, if_pos hd]; rfl
    · rw [exec_get_of_not_wellFormed hd, answerTo, if_neg hd]; rfl
  | set d v =>
    by_cases hd : d.WellFormed
    · rw [exec_set_of_wellFormed hd, answerTo, bufferAfter, if_pos hd, if_pos hd]
    · rw [exec_set_of_not_wellFormed hd, answerTo, bufferAfter, if_neg hd, if_neg hd]; rfl
  | rev w v =>
    by_cases hw : RevWidth w
    · rw [exec_rev_of_revWidth hw, answerTo, if_pos hw]; rfl
    · rw [exec_rev_of_not_revWidth hw, answerTo, if_neg hw]; rfl
  | txread => exact exec_txread_of_committed (h rfl)
  | namefor k raw => rfl
  | commit => rfl
  | verify => rfl
  | replace g => rfl

/-- An operation that is no TXREAD of a dirty buffer goes on, and any other stops. -/
theorem exec_eq_next_iff {i : Instr} {s t : State} :
    exec i s = .next t ↔
      GoesOn s.buffer i ∧ t = (s.setBuffer (bufferAfter s.buffer i)).setResponse (some (answerTo s.buffer i)) := by
  constructor
  · intro h
    have hgoes : GoesOn s.buffer i := by
      rintro rfl
      by_contra hdirty
      rw [exec_txread_of_dirty (by simpa using hdirty)] at h
      cases h
    rw [exec_of_goesOn hgoes] at h
    cases h
    exact ⟨hgoes, rfl⟩
  · rintro ⟨hgoes, rfl⟩
    exact exec_of_goesOn hgoes

/-! ### Sound answers (30_encoding.md R74, 44_buffer_lifecycle.md R137) -/

/-- A response without a frame is sound: thirteen zero cells are committed. -/
theorem sound_okResponse (v : Byte) : (okResponse v).Sound :=
  ⟨by simp [okResponse], by simp [okResponse], by simp [okResponse], show committed (unpackFrame 0) = true by decide⟩

theorem sound_refusedResponse : refusedResponse.Sound :=
  ⟨by decide, by decide, by decide, by decide⟩

theorem sound_frameResponse {f : Frame} (h : committed f = true) : (frameResponse (packFrame f)).Sound :=
  ⟨by simp [frameResponse], by simp [frameResponse], fun _ => rfl, by rw [frameResponse, unpackFrame_packFrame, h]⟩

/-- The response of an operation that is refused when its operands are ill formed. -/
theorem sound_okResponse_or_refused {p : Prop} [Decidable p] (v : Byte) :
    (if p then okResponse v else refusedResponse).Sound := by
  split
  · exact sound_okResponse v
  · exact sound_refusedResponse

theorem sound_answerTo {f : Frame} {i : Instr} (h : GoesOn f i) : (answerTo f i).Sound := by
  cases i with
  | get d => exact sound_okResponse_or_refused _
  | set d v => exact sound_okResponse_or_refused _
  | rev w v => exact sound_okResponse_or_refused _
  | txread => exact sound_frameResponse (h rfl)
  | namefor k raw => exact sound_okResponse _
  | commit => exact sound_okResponse _
  | verify => exact sound_okResponse _
  | replace g => exact sound_okResponse _

/-! ### What a step can do -/

/-- A request that is performed gets one sound response, or the run stops at a STALE answer. -/
theorem perform_cases (q : Request) (s : State) :
    (∃ f r, r.Sound ∧ perform q s = .next ((s.setBuffer f).setResponse (some r))) ∨
      ∃ a, perform q s = .fault (.staleTransmit a) := by
  cases hq : decode q.word q.operand with
  | error e =>
    rw [perform_error hq]
    exact .inl ⟨s.buffer, _, sound_refusedResponse, rfl⟩
  | ok i =>
    rw [perform_ok hq]
    obtain ⟨f, r, hexec⟩ | ⟨-, -, hexec⟩ := exec_cases i s
    · obtain ⟨hgoes, -⟩ := exec_eq_next_iff.mp hexec
      exact .inl ⟨_, _, sound_answerTo hgoes, exec_of_goesOn hgoes⟩
    · exact .inr ⟨_, hexec⟩

/-- The state after a step that takes a request of agent `a` and answers `r` with buffer `f`. -/
def answered (s : State) (a : Agent) (rest : List Request) (f : Frame) (r : Response) : State :=
  recordAnswer a { buffer := f, inbox := rest, response := some r, answers := s.answers }

/-- With a request presented, a step answers it soundly or stops at a STALE answer. -/
theorem step_cons_cases {s : State} {q : Request} {rest : List Request} (h : s.inbox = q :: rest) :
    (∃ f r, r.Sound ∧ step s = .next (answered s q.agent rest f r)) ∨ ∃ a, step s = .fault (.staleTransmit a) := by
  rw [step_cons h]
  obtain ⟨f, r, hr, hperform⟩ | ⟨a, hperform⟩ := perform_cases q ((s.setInbox rest).setResponse none)
  · exact .inl ⟨f, r, hr, by rw [hperform]; rfl⟩
  · exact .inr ⟨a, by rw [hperform]; rfl⟩

/-- A step that goes on is idle or answers the first request soundly. -/
theorem step_next_cases {s t : State} (h : step s = .next t) :
    (s.inbox = [] ∧ t = idle s) ∨
      ∃ q rest f r, s.inbox = q :: rest ∧ r.Sound ∧ t = answered s q.agent rest f r := by
  cases hinbox : s.inbox with
  | nil =>
    cases (step_nil hinbox).symm.trans h
    exact .inl ⟨rfl, rfl⟩
  | cons q rest =>
    obtain ⟨f, r, hr, hstep⟩ | ⟨a, hstep⟩ := step_cons_cases hinbox
    · cases hstep.symm.trans h
      exact .inr ⟨q, rest, f, r, rfl, hr, rfl⟩
    · cases hstep.symm.trans h

/-- The agent of a request has a part in the giving of its answer alone (60_exceptions.md R156). -/
theorem step_of_agent (s : State) (a : Agent) (w : CommandWord) (x : FrameWord) (rest : List Request) :
    step (s.setInbox ({ agent := a, word := w, operand := x } :: rest)) =
      giveAnswer a (perform { agent := .c, word := w, operand := x } ((s.setInbox rest).setResponse none)) :=
  step_cons (r := { agent := a, word := w, operand := x }) rfl

section answered

variable (s : State) (a : Agent) (q : Request) (rest : List Request) (f : Frame) (r : Response)

@[simp] theorem answered_buffer : (answered s a rest f r).buffer = f := recordAnswer_buffer ..
@[simp] theorem answered_inbox : (answered s a rest f r).inbox = rest := recordAnswer_inbox ..
@[simp] theorem answered_response : (answered s a rest f r).response = some r := recordAnswer_response ..
@[simp] theorem answered_c_answers : (answered s .c rest f r).answers = s.answers ++ [r] := rfl
@[simp] theorem answered_t_answers : (answered s .t rest f r).answers = s.answers := rfl

theorem mem_answered_answers {p : Response} (h : p ∈ (answered s a rest f r).answers) : p ∈ s.answers ∨ p = r := by
  cases a with
  | c => simpa using h
  | t => exact .inl h

/-- A request of agent C that is taken becomes an answer, and one of agent T becomes none. -/
theorem answered_count :
    (answered s q.agent rest f r).answers.length + (presentedBy .c rest).length =
      s.answers.length + (presentedBy .c (q :: rest)).length := by
  cases hq : q.agent with
  | c => simp [presentedBy, hq]; omega
  | t => simp [presentedBy, hq]

end answered

/-! ### What repeating an operation, or changing other cells, does to it -/

theorem commitFrame_commitFrame (f : Frame) : commitFrame (commitFrame f) = commitFrame f :=
  commitFrame_of_committed (committed_commitFrame f)

theorem bufferAfter_set {d : Descriptor} (hd : d.WellFormed) (f : Frame) (v : Byte) :
    bufferAfter f (.set d v) = setField f d v :=
  if_pos hd

theorem bufferAfter_set_of_not_wellFormed {d : Descriptor} (hd : ¬ d.WellFormed) (f : Frame) (v : Byte) :
    bufferAfter f (.set d v) = f :=
  if_neg hd

/-- An operation leaves alone the buffer it has left (20_memory.md R48, 43_checksum.md R126). -/
theorem bufferAfter_bufferAfter (f : Frame) (i : Instr) : bufferAfter (bufferAfter f i) i = bufferAfter f i := by
  cases i with
  | set d v =>
    by_cases hd : d.WellFormed
    · rw [bufferAfter_set hd, bufferAfter_set hd, setField_setField hd]
    · simp only [bufferAfter_set_of_not_wellFormed hd]
  | commit => exact commitFrame_commitFrame f
  | get d => rfl
  | namefor k raw => rfl
  | verify => rfl
  | replace g => rfl
  | txread => rfl
  | rev w v => rfl

/-- An operation that changes the buffer answers without looking at it, so its answer is the same again. -/
theorem answerTo_bufferAfter (f : Frame) (i : Instr) : answerTo (bufferAfter f i) i = answerTo f i := by
  cases i <;> rfl

theorem goesOn_bufferAfter {f : Frame} {i : Instr} (h : GoesOn f i) : GoesOn (bufferAfter f i) i := by
  rintro rfl
  exact h rfl

/-- The cells an operation changes (10_state.md R21, R22). -/
theorem readCell_bufferAfter_ne {f : Frame} {i : Instr} {j : Nat}
    (h : readCell (bufferAfter f i) j ≠ readCell f j) :
    (∃ d v, i = .set d v ∧ j = d.byteIndex) ∨ (i = .commit ∧ j = 12) ∨ ∃ g, i = .replace g := by
  cases i with
  | set d v =>
    refine .inl ⟨d, v, rfl, ?_⟩
    by_contra hj
    by_cases hd : d.WellFormed
    · rw [bufferAfter_set hd] at h
      exact h (readCell_setField_ne f d v hj)
    · rw [bufferAfter_set_of_not_wellFormed hd] at h
      exact h rfl
  | commit =>
    refine .inr (.inl ⟨rfl, ?_⟩)
    by_contra hj
    exact h (readCell_commitFrame_ne f hj)
  | replace g => exact .inr (.inr ⟨g, rfl⟩)
  | get d => exact absurd rfl h
  | namefor k raw => exact absurd rfl h
  | verify => exact absurd rfl h
  | txread => exact absurd rfl h
  | rev w v => exact absurd rfl h

/-- GET reads one cell (10_state.md R22). -/
theorem answerTo_get_congr {d : Descriptor} {f g : Frame} (h : readCell f d.byteIndex = readCell g d.byteIndex) :
    answerTo f (.get d) = answerTo g (.get d) := by
  have hfield : getField f d = getField g d := by rw [getField, h, getField]
  rw [answerTo, answerTo, hfield]

/-- What SET leaves in its cell depends on that cell alone (10_state.md R22). -/
theorem readCell_bufferAfter_set_congr {d : Descriptor} {f g : Frame}
    (h : readCell f d.byteIndex = readCell g d.byteIndex) (v : Byte) :
    readCell (bufferAfter f (.set d v)) d.byteIndex = readCell (bufferAfter g (.set d v)) d.byteIndex := by
  by_cases hd : d.WellFormed
  · rw [bufferAfter_set hd, bufferAfter_set hd, readCell_setField, readCell_setField, h]
  · rw [bufferAfter_set_of_not_wellFormed hd, bufferAfter_set_of_not_wellFormed hd, h]

/-! ### Steps and runs of requests that go on -/

/-- The step of a well-formed operation that goes on, for either agent. -/
theorem step_request {s : State} {a : Agent} {i : Instr} {rest : List Request} (h : s.inbox = request a i :: rest)
    (hi : i.WellFormed) (hgoes : GoesOn s.buffer i) :
    step s = .next (answered s a rest (bufferAfter s.buffer i) (answerTo s.buffer i)) := by
  have hdecode : decode (request a i).word (request a i).operand = .ok i := decode_encode hi
  have hexec := exec_of_goesOn (s := (s.setInbox rest).setResponse none) hgoes
  rw [step_cons h, perform_ok hdecode, hexec]
  rfl

theorem step_set {s : State} {a : Agent} {d : Descriptor} {v : Byte} {rest : List Request}
    (h : s.inbox = request a (.set d v) :: rest) (hd : d.WellFormed) :
    step s = .next (answered s a rest (setField s.buffer d v) (okResponse 0)) := by
  rw [step_request h ((wellFormed_set d v).mpr hd) goesOn_of_ne_txread, bufferAfter_set hd, answerTo, if_pos hd]

theorem step_get {s : State} {a : Agent} {d : Descriptor} {rest : List Request}
    (h : s.inbox = request a (.get d) :: rest) (hd : d.WellFormed) :
    step s = .next (answered s a rest s.buffer (okResponse (getField s.buffer d))) := by
  rw [step_request h ((wellFormed_get d).mpr hd) goesOn_of_ne_txread, answerTo, if_pos hd]
  rfl

theorem step_commit {s : State} {a : Agent} {rest : List Request} (h : s.inbox = request a .commit :: rest) :
    step s = .next (answered s a rest (commitFrame s.buffer) (okResponse 0)) :=
  step_request h wellFormed_commit goesOn_of_ne_txread

theorem step_verify {s : State} {a : Agent} {rest : List Request} (h : s.inbox = request a .verify :: rest) :
    step s = .next (answered s a rest s.buffer (okResponse (if committed s.buffer then 1 else 0))) :=
  step_request h wellFormed_verify goesOn_of_ne_txread

theorem step_replace {s : State} {a : Agent} {f : Frame} {rest : List Request}
    (h : s.inbox = request a (.replace f) :: rest) : step s = .next (answered s a rest f (okResponse 0)) :=
  step_request h (wellFormed_replace f) goesOn_of_ne_txread

theorem step_txread {s : State} {a : Agent} {rest : List Request} (h : s.inbox = request a .txread :: rest)
    (hc : committed s.buffer = true) :
    step s = .next (answered s a rest s.buffer (frameResponse (packFrame s.buffer))) :=
  step_request h wellFormed_txread fun _ => hc

/-- A batch of SETs by agent C is done in order, each answered OK. -/
theorem runSteps_sets {edits : List (Descriptor × Byte)} (hwf : ∀ e ∈ edits, e.1.WellFormed) (n : Nat)
    {rest : List Request} {s : State} (h : s.inbox = (edits.map fun e => request .c (.set e.1 e.2)) ++ rest) :
    ∃ u, runSteps (edits.length + n) s = runSteps n u ∧ u.inbox = rest ∧
      u.buffer = edits.foldl (fun f e => setField f e.1 e.2) s.buffer ∧
      u.answers = s.answers ++ List.replicate edits.length (okResponse 0) := by
  induction edits generalizing s with
  | nil => exact ⟨s, by rw [List.length_nil, Nat.zero_add], h, rfl, by simp⟩
  | cons e edits ih =>
    obtain ⟨hhead, htail⟩ := List.forall_mem_cons.mp hwf
    obtain ⟨u, hrun, hinbox, hbuffer, hanswers⟩ := ih htail
      (answered_inbox s .c _ (setField s.buffer e.1 e.2) (okResponse 0))
    refine ⟨u, ?_, hinbox, ?_, ?_⟩
    · rw [List.length_cons, Nat.add_right_comm]
      exact (runSteps_next (step_set h hhead)).trans hrun
    · rw [hbuffer, answered_buffer, List.foldl_cons]
    · rw [hanswers, answered_c_answers, List.length_cons, List.replicate_succ, List.append_assoc, List.singleton_append]

/-- A run of as many steps as there are requests stops at a STALE answer or takes and answers them all. -/
theorem runSteps_all_requests (rs : List Request) {s : State} (h : s.inbox = rs) :
    (∃ a, runSteps rs.length s = .fault (.staleTransmit a)) ∨
      ∃ t, runSteps rs.length s = .next t ∧ t.inbox = [] ∧
        t.answers.length = s.answers.length + (presentedBy .c rs).length := by
  induction rs generalizing s with
  | nil => exact .inr ⟨s, rfl, h, rfl⟩
  | cons q rest ih =>
    obtain ⟨f, r, -, hstep⟩ | ⟨a, hstep⟩ := step_cons_cases h
    · rw [List.length_cons, runSteps_next hstep]
      refine (ih (answered_inbox ..)).imp_right ?_
      rintro ⟨t, hrun, hinbox, hcount⟩
      exact ⟨t, hrun, hinbox, hcount.trans (answered_count ..)⟩
    · exact .inl ⟨a, runSteps_fault hstep⟩

/-! ### The obligations about reset and single steps -/

/-- Settles O1: by looking at the reset state. -/
theorem resetLeavesThirteenZeroCells : Obligations.ResetLeavesThirteenZeroCells := by
  unfold Obligations.ResetLeavesThirteenZeroCells
  decide

/-- Settles O2: a frame of 104 zero bits unpacks to the reset buffer. -/
theorem replaceWithZeroBytesRestoresTheResetBuffer : Obligations.ReplaceWithZeroBytesRestoresTheResetBuffer := by
  intro s a rest
  refine ⟨_, step_replace (setInbox_inbox s _), ?_⟩
  rw [answered_buffer]
  decide

/-- Settles O3: the template is the frame of one REPLACE. -/
theorem bootLoadsTheBaseTemplate : Obligations.BootLoadsTheBaseTemplate := by
  intro rest
  have hinbox : (startRun (bootRequest :: rest)).inbox = request .c (.replace Config.baseTemplate) :: rest := rfl
  exact ⟨_, step_replace hinbox, answered_buffer .., answered_inbox .., answered_c_answers ..⟩

/-- Settles O4: a step is the taking, the performing and the answering of one request. -/
theorem stepRunsTheDecodedOperation : Obligations.StepRunsTheDecodedOperation := by
  intro s r rest i hinbox hdecode taken
  have hstep : step s = giveAnswer r.agent (exec i taken) := by
    rw [step_cons hinbox, perform_ok hdecode]
    rfl
  refine ⟨fun t ht => ?_, fun f hf => ?_⟩
  · rw [hstep, ht]
    rfl
  · rw [hstep, hf]
    rfl

/-- Settles O5. -/
theorem stepWithoutARequestIsIdle : Obligations.StepWithoutARequestIsIdle :=
  fun _ => step_nil

/-- Settles O6: a word with a cause of refusal has a first one, which the decoder names. -/
theorem exactlyTheIllFormedWordsAreRefused : Obligations.ExactlyTheIllFormedWordsAreRefused := by
  intro s w x rest
  refine ⟨fun hcause => ?_, fun hnone => ?_⟩
  · obtain ⟨e, he⟩ := exists_firstCause hcause
    have herror : decode w x = .error e := decode_of_isFirstCause he x
    rw [step_of_agent, perform_error (r := { agent := .c, word := w, operand := x }) herror]
    rfl
  · obtain ⟨i, hi⟩ := decode_ok_of_no_cause hnone x
    obtain ⟨hwf, -⟩ := encode_of_decode_ok hi
    exact ⟨i, hi, hwf⟩

/-- Settles O7: the agent of a request is looked at when its answer is recorded, and nowhere else. -/
theorem theBlockDoesNotCheckTheAgent : Obligations.TheBlockDoesNotCheckTheAgent := by
  intro s w x rest
  rw [step_of_agent s .c, step_of_agent s .t]
  obtain ⟨f, r, -, hperform⟩ | ⟨a, hperform⟩ :=
    perform_cases { agent := .c, word := w, operand := x } ((s.setInbox rest).setResponse none)
  · rw [hperform]
    refine ⟨fun t h => ?_, fun f h => by cases h⟩
    cases h
    rfl
  · rw [hperform]
    exact ⟨fun t h => (by cases h), fun f h => h⟩

/-! ### The obligations about the operations -/

/-- Settles O40: TXREAD hands over the packed buffer. -/
theorem txreadHandsOverACommittedFrame : Obligations.TxreadHandsOverACommittedFrame :=
  fun s hc => ⟨packFrame s.buffer, exec_txread_of_committed hc, fun _ _ hi hj => getLsbD_packFrame s.buffer hi hj⟩

/-- Settles O41. -/
theorem txreadOfADirtyBufferFaults : Obligations.TxreadOfADirtyBufferFaults :=
  fun _ => exec_txread_of_dirty

/-- Settles O42: every operation is answered, or is the one TXREAD that stops. -/
theorem onlyAStaleTransmissionStops : Obligations.OnlyAStaleTransmissionStops := by
  refine ⟨fun i s => ?_, fun s q hrefused => ?_⟩
  · obtain ⟨f, r, hexec⟩ | ⟨hi, hdirty, -⟩ := exec_cases i s
    · exact .inl ⟨_, hexec, rfl, rfl⟩
    · exact .inr ⟨hi, hdirty⟩
  · cases hinbox : s.inbox with
    | nil => cases (step_nil hinbox).symm.trans hrefused
    | cons r rest =>
      obtain ⟨f, p, -, hstep⟩ | ⟨a, hstep⟩ := step_cons_cases hinbox
      · cases hstep.symm.trans hrefused
      · cases hstep.symm.trans hrefused

/-- Settles O43: the cells an operation changes are those of the buffer it leaves. -/
theorem onlySetCommitAndReplaceChangeCells : Obligations.OnlySetCommitAndReplaceChangeCells := by
  intro i s t j hexec hne
  obtain ⟨-, rfl⟩ := exec_eq_next_iff.mp hexec
  refine (readCell_bufferAfter_ne hne).imp_right (Or.imp_left ?_)
  rintro ⟨rfl, hj⟩
  refine ⟨rfl, hj, ?_⟩
  change readCell (commitFrame s.buffer) 12 &&& 0xF0 = _
  rw [readCell_commitFrame_checksum, highNibble_or_and_highMask _ (cks_and_lowMask s.buffer)]

/-- Settles O44: the buffer and the answer of an operation are fixed points of it. -/
theorem anOperationRepeatedAtOnceChangesNothing : Obligations.AnOperationRepeatedAtOnceChangesNothing := by
  intro i s t hexec
  obtain ⟨hgoes, rfl⟩ := exec_eq_next_iff.mp hexec
  refine exec_eq_next_iff.mpr ⟨goesOn_bufferAfter hgoes, ?_⟩
  rw [setResponse_buffer, setBuffer_buffer, bufferAfter_bufferAfter, answerTo_bufferAfter]
  rfl

/-- Settles O45: the buffer and the answer of an operation are functions of the cells it reads. -/
theorem answersDependOnlyOnTheCellsRead : Obligations.AnswersDependOnlyOnTheCellsRead := by
  refine ⟨fun d v s t hcell => ⟨⟨answerTo s.buffer (.get d), ?_, ?_⟩, ?_⟩, fun k w v s t => ⟨?_, ?_⟩⟩
  · exact exec_of_goesOn goesOn_of_ne_txread
  · rw [answerTo_get_congr hcell]
    exact exec_of_goesOn goesOn_of_ne_txread
  · exact ⟨_, _, exec_of_goesOn goesOn_of_ne_txread, exec_of_goesOn goesOn_of_ne_txread, rfl,
      readCell_bufferAfter_set_congr hcell v⟩
  · exact ⟨_, exec_namefor k v s, exec_namefor k v t⟩
  · exact ⟨answerTo s.buffer (.rev w v), exec_of_goesOn goesOn_of_ne_txread,
      exec_of_goesOn goesOn_of_ne_txread⟩

/-! ### The obligations about what every step keeps -/

/-- Settles O46: the one response a step adds is sound. -/
theorem everyStepKeepsTheAnswersSound : Obligations.EveryStepKeepsTheAnswersSound := by
  rintro s t ⟨hanswers, -⟩ hstep
  obtain ⟨-, rfl⟩ | ⟨q, rest, f, r, -, hr, rfl⟩ := step_next_cases hstep
  · exact ⟨hanswers, fun p hp => by cases hp⟩
  · refine ⟨fun p hp => ?_, fun p hp => ?_⟩
    · obtain hp | rfl := mem_answered_answers _ _ _ _ _ hp
      · exact hanswers p hp
      · exact hr
    · rw [answered_response] at hp
      cases hp
      exact hr

/-- Settles O52: a step takes no request, or takes one and answers it. -/
theorem everyStepKeepsTheCountOfAnswers : Obligations.EveryStepKeepsTheCountOfAnswers := by
  rintro n s t hcount hstep
  obtain ⟨-, rfl⟩ | ⟨q, rest, f, r, hinbox, -, rfl⟩ := step_next_cases hstep
  · exact hcount
  · rw [answered_inbox, answered_count, ← hinbox]
    exact hcount

/-- Settles O47: nothing has been answered. -/
theorem resetAnswersAreSound : Obligations.ResetAnswersAreSound :=
  ⟨fun _ hr => absurd hr List.not_mem_nil, fun _ hr => by cases hr⟩

/-! ### The obligations about runs -/

/-- Settles O33: COMMIT leaves a committed frame. -/
theorem verifyAnswersOneAfterCommit : Obligations.VerifyAnswersOneAfterCommit := by
  intro s rest h
  refine ⟨_, (runSteps_next (step_commit h)).trans (runSteps_next (step_verify (answered_inbox ..))),
    answered_inbox .., ?_⟩
  rw [answered_c_answers, answered_c_answers, answered_buffer, if_pos (committed_commitFrame s.buffer),
    List.append_assoc, List.singleton_append]

/-- Settles O48: each step takes one request and answers it, or stops at a STALE answer. -/
theorem everyRunEndsWithEveryAnswer : Obligations.EveryRunEndsWithEveryAnswer := by
  intro s
  refine (runSteps_all_requests s.inbox rfl).imp_right ?_
  rintro ⟨t, hrun, hinbox, hcount⟩
  exact ⟨t, hrun, hinbox, by rw [Finished, hinbox]; rfl, hcount⟩

/-- Settles O49: the SETs leave the edited frame, COMMIT commits it, and TXREAD hands it over. -/
theorem anUndisturbedBatchIsTransmitted : Obligations.AnUndisturbedBatchIsTransmitted := by
  intro edits rest s hwf h
  obtain ⟨u, hrun, hinbox, hbuffer, hanswers⟩ := runSteps_sets hwf 2 h
  have hcommitted :
      committed (answered u .c (request .c .txread :: rest) (commitFrame u.buffer) (okResponse 0)).buffer = true :=
    committed_commitFrame u.buffer
  refine ⟨_, hrun.trans ((runSteps_next (step_commit hinbox)).trans
    (runSteps_next (step_txread (answered_inbox ..) hcommitted))), answered_inbox .., ?_, ?_, ?_⟩
  · rw [answered_buffer, hcommitted]
  · rw [answered_buffer, answered_buffer, hbuffer]
  · rw [answered_c_answers, answered_c_answers, answered_buffer, answered_buffer, hanswers, List.replicate_succ',
      List.append_assoc s.answers]

/-- Settles O50: REPLACE discards the buffer with the SET in it, and COMMIT and TXREAD see agent T's frame alone. -/
theorem anInterposedReplaceIsTransmittedInstead : Obligations.AnInterposedReplaceIsTransmittedInstead := by
  intro d v f rest s h hd
  refine ⟨_, (runSteps_next (step_set h hd)).trans ((runSteps_next (step_replace (answered_inbox ..))).trans
    ((runSteps_next (step_commit (answered_inbox ..))).trans
      (runSteps_next (step_txread (answered_inbox ..) ?_)))), answered_inbox .., ?_, ?_⟩
  · rw [answered_buffer, committed_commitFrame]
  · rw [answered_buffer, answered_buffer, answered_buffer]
  · rw [answered_response, answered_buffer, answered_buffer]

/-- Settles O51: REPLACE leaves agent T's frame, and VERIFY and GET read it and leave it. -/
theorem aReceivedFrameIsVerifiedAndReadAsItArrived : Obligations.AReceivedFrameIsVerifiedAndReadAsItArrived := by
  intro f d rest s hd h
  refine ⟨_, (runSteps_next (step_replace h)).trans ((runSteps_next (step_verify (answered_inbox ..))).trans
    (runSteps_next (step_get (answered_inbox ..) hd))), answered_inbox .., ?_, ?_⟩
  · rw [answered_buffer, answered_buffer, answered_buffer]
  · rw [answered_c_answers, answered_c_answers, answered_t_answers, answered_buffer, answered_buffer,
      List.append_assoc, List.singleton_append]

end Sys2Proof.Machine
